-- ==== Sys2Proof/Word.lean ====
section
/-! DEFINITION. Word.lean: the bit vectors of the block, one name per thing the spec treats as bits. -/

namespace Sys2Proof

/-- A command word, `cmd_word[71:0]` (30_encoding.md R80). -/
abbrev CmdWord := BitVec 72

/-- A response word, `rsp_word[71:0]` (30_encoding.md R88). -/
abbrev RspWord := BitVec 72

/-- A 64-bit operand or data field (30_encoding.md R82, R90). -/
abbrev Word64 := BitVec 64

/-- One register of the array: `REG_W = 7` bits (00_scope.md R9). -/
abbrev Reg := BitVec 7

/-- One byte of an element's byte sequence (00_scope.md R5). -/
abbrev Byte := BitVec 8

end Sys2Proof
end

