-- ==== Sys2Proof/Syntax.lean ====
section
/-! DEFINITION. Syntax.lean: the command set HLLCMD version 1 (00_scope.md R3), one constructor per row of
spec/opcode_table.json. -/

namespace Sys2Proof

/-- The three commands of the block (30_encoding.md R86). -/
inductive Instr where
  /-- `NEW p`: build an estimator of precision `p`, a signed integer (format P, 30_encoding.md R83). -/
  | new (p : Int)
  /-- `ADD H`: observe one element's 64-bit hash (format H, 30_encoding.md R84). -/
  | add (h : Word64)
  /-- `COUNT`: return the cardinality estimate (format Z, 30_encoding.md R85). -/
  | count
  deriving DecidableEq, Repr

end Sys2Proof
end

