-- ==== Sys2Proof/WellFormed.lean ====
section
/-! DEFINITION. WellFormed.lean: which terms of `Instr` have an encoding. -/

namespace Sys2Proof

/-- An instruction is well formed when its operand fits the 64-bit operand field: the precision of `NEW` is an integer
in `[-2^63, 2^63 - 1]` (30_encoding.md R87, R97). Every hash is legal (R84) and `COUNT` has no operand (R85). -/
def Instr.wellFormed : Instr → Bool
  | .new p => decide (-2 ^ 63 ≤ p) && decide (p < 2 ^ 63)
  | .add _ => true
  | .count => true

end Sys2Proof
end

