-- ==== Sys2Proof/Decode.lean ====
section
/-! DEFINITION. Decode.lean: the decoder of 30_encoding.md R95, total on every 72-bit word and rejecting by name; the
encoder, from the formats of R83 to R85; the opcode map of R86 as mask and match; and the host's numbering of a word. -/

namespace Sys2Proof

/-- Why a command word selects no command; both are the error `IllegalCommand` (60_exceptions.md R202). -/
inductive DecodeError where
  /-- The opcode is not 0x01, 0x02 or 0x03 (30_encoding.md R91). -/
  | reservedOpcode (opcode : BitVec 8)
  /-- The opcode is `COUNT`'s and the operand is not zero (30_encoding.md R92). -/
  | countOperandNotZero (operand : Word64)
  deriving DecidableEq, Repr

/-- The `opcode` field, bits 71:64 (30_encoding.md R80). -/
def opcodeField (w : CmdWord) : BitVec 8 := w.extractLsb' 64 8

/-- The `operand` field, bits 63:0 (30_encoding.md R80). -/
def operandField (w : CmdWord) : Word64 := w.extractLsb' 0 64

/-- `sint64`: the two's-complement value of a 64-bit word (00_scope.md section 6, 30_encoding.md R87). -/
def sint64 (x : Word64) : Int := if x.getLsbD 63 then (x.toNat : Int) - 2 ^ 64 else x.toNat

/-- The opcodes of 30_encoding.md R86. -/
def opcodeNew : BitVec 8 := 0x01#8
def opcodeAdd : BitVec 8 := 0x02#8
def opcodeCount : BitVec 8 := 0x03#8

/-- `decode` of 30_encoding.md R95. -/
def decode (w : CmdWord) : Except DecodeError Instr :=
  if opcodeField w = opcodeNew then .ok (.new (sint64 (operandField w)))
  else if opcodeField w = opcodeAdd then .ok (.add (operandField w))
  else if opcodeField w = opcodeCount then
    if operandField w = 0#64 then .ok .count else .error (.countOperandNotZero (operandField w))
  else .error (.reservedOpcode (opcodeField w))

/-- A command word from its two fields, `{opcode, operand}` (30_encoding.md R80). -/
def commandWord (opcode : BitVec 8) (operand : Word64) : CmdWord := opcode ++ operand

/-- The word of an instruction (30_encoding.md R83 to R85, R97): `NEW` carries the two's-complement encoding of its
precision, `ADD` its hash, `COUNT` zero. -/
def encode : Instr → CmdWord
  | .new p => commandWord opcodeNew (BitVec.ofInt 64 p)
  | .add h => commandWord opcodeAdd h
  | .count => commandWord opcodeCount 0#64

/-- One row of the mask and match table of 30_encoding.md R86. -/
structure OpcodeRow where
  mnemonic : String
  mask     : CmdWord
  pattern  : CmdWord
  deriving DecidableEq, Repr

/-- A word selects a row when `w AND mask = match` (30_encoding.md R86). -/
def OpcodeRow.selects (r : OpcodeRow) (w : CmdWord) : Bool := w &&& r.mask == r.pattern

/-- The rows of 30_encoding.md R86. -/
def rowNew : OpcodeRow := ⟨"NEW", 0xFF0000000000000000, 0x010000000000000000⟩
def rowAdd : OpcodeRow := ⟨"ADD", 0xFF0000000000000000, 0x020000000000000000⟩
def rowCount : OpcodeRow := ⟨"COUNT", 0xFFFFFFFFFFFFFFFFFF, 0x030000000000000000⟩

/-- The opcode table, in the order of 30_encoding.md R86. -/
def opcodeTable : List OpcodeRow := [rowNew, rowAdd, rowCount]

/-- The row an instruction stands for. -/
def Instr.row : Instr → OpcodeRow
  | .new _ => rowNew
  | .add _ => rowAdd
  | .count => rowCount

/-- The command word whose bits are `w`, numbered as spec/opcode_table.json numbers them (bit 0 the least significant
bit of the one 72-bit word); every bit from `nbits` up is 0. A command word is one parallel 72-bit word, so there is no
byte order to choose (20_memory.md R52); assumption log entry 16. -/
def tableWord (nbits w : Nat) : CmdWord := BitVec.ofNat 72 (w % 2 ^ nbits)

/-- The instruction the decoder reads from that word. -/
def decodeTableWord (nbits w : Nat) : Option Instr :=
  match decode (tableWord nbits w) with
  | .ok i => some i
  | .error _ => none

end Sys2Proof
end

