-- ==== Sys2Proof/Machine/Logarithm.lean ====
section
/-! DEFINITION. Machine/Logarithm.lean: the linear-counting value `floor(m * ln(m / c))` of 42_count.md R176 in natural numbers,
by a fixed-point logarithm: this instance's `LinCount`. -/

namespace Sys2Proof.Machine

/-- Fraction bits of the fixed-point logarithm; assumption log entry 11. -/
def lnBits : Nat := 192

/-- Terms of the series of the fixed-point logarithm; assumption log entry 11. -/
def lnTerms : Nat := 64

/-- A lower approximation of `ln(a / b) * 2^lnBits` for `b <= a <= 2 * b`, by
`ln(a / b) = 2 * (z + z^3 / 3 + z^5 / 5 + ...)` with `z = (a - b) / (a + b)`, each term rounded down. -/
def lnRatio (a b : Nat) : Nat :=
  ((List.range lnTerms).map
    (fun k => 2 ^ (lnBits + 1) * (a - b) ^ (2 * k + 1) / ((2 * k + 1) * (a + b) ^ (2 * k + 1)))).sum

/-- A lower approximation of `ln(m / c) * 2^lnBits` for `1 <= c <= m`: the halvings that bring `m / c` below 2 contribute
`ln 2` each. -/
def lnScaled (m c : Nat) : Nat :=
  let j := Nat.log2 (m / c)
  j * lnRatio 2 1 + lnRatio m (c * 2 ^ j)

/-- `floor(m * ln(m / c))`, the linear-counting value (42_count.md R167, R170, R176). -/
def linCount (m c : Nat) : Nat := m * lnScaled m c / 2 ^ lnBits

end Sys2Proof.Machine
end

