-- ==== Sys2Proof/Config.lean ====
section
/-! DEFINITION. Config.lean: the implementation parameters of 00_scope.md section 4, and the host's hash function.
They are parameters of the step, not state (10_state.md R37). -/

namespace Sys2Proof

/-- The two admissible readings of the rank of an all-zero rank field (90_conflicts.md C2, 92_eei_decisions.md D7).
`stated` is the spec's choice `64 - p + 1`; `literal` is the losing reading 65, kept as the optional setting. -/
inductive AllZeroRank where
  | stated
  | literal
  deriving DecidableEq, Repr

/-- The parameters a model takes as arguments (92_eei_decisions.md, last table): the precision range `P_MIN`, `P_MAX`,
the bias constant `ALPHA = alphaNum / alphaDen`, the optional `RANK_ALLZERO`, and the configuration function `LinCount` that
42_count.md R176 and 92_eei_decisions.md D10 offer for `floor(m * ln(m / c))` (its property: `Params.LinCountExact`). -/
structure Params where
  pMin     : Nat
  pMax     : Nat
  alphaNum : Nat
  alphaDen : Nat
  allZero  : AllZeroRank
  linCount : Nat → Nat → Nat

/-- The constraint on the parameters (00_scope.md R7; `ALPHA` positive, 92_eei_decisions.md last table). -/
abbrev Params.Admissible (P : Params) : Prop :=
  1 ≤ P.pMin ∧ P.pMin ≤ P.pMax ∧ P.pMax ≤ 63 ∧ 0 < P.alphaNum ∧ 0 < P.alphaDen

/-- The named property of `LinCount` (42_count.md R176): it is the exact floor for every precision the block accepts and
every number `c` of registers equal to 0. For this instance it is a statement for the provers (assumption log entry 11); for
any other set of parameters it is a premise. -/
def Params.LinCountExact (P : Params) : Prop :=
  ∀ p c : Nat, P.pMin ≤ p → p ≤ P.pMax → 1 ≤ c → c ≤ 2 ^ p →
    P.linCount (2 ^ p) c = ⌊((2 ^ p : Nat) : ℝ) * Real.log (((2 ^ p : Nat) : ℝ) / c)⌋₊

namespace Config

/-- The parameters of this hardware instance: the defaults of 00_scope.md section 4 (R7, R11, R133).
DESIGN CHOICE of the spec for each value, and DESIGN CHOICE of the model for `linCount`; assumption log entries 8, 9 and
11. `Machine.exec` and `Machine.step` are the block at these parameters, `Machine.execWith` and `Machine.stepWith` the block
at any. -/
def params : Params where
  pMin     := 4
  pMax     := 16
  alphaNum := 39701
  alphaDen := 50000
  allZero  := .stated
  linCount := Machine.linCount

/-- Numerator of `SMALL_K = 5/2` (00_scope.md R10). -/
def smallKNum : Nat := 5

/-- Denominator of `SMALL_K = 5/2` (00_scope.md R10). -/
def smallKDen : Nat := 2

/-- The host's hash function: total and deterministic on all byte sequences, with a 64-bit result, and nothing more
(00_scope.md R5, 92_eei_decisions.md D1). A FREE VALUE: it has no body, so no claim can rest on which function it is.
Only the pseudo-instruction `adde` reads it (30_encoding.md R98); assumption log entry 10. -/
opaque hash : List Byte → Word64

end Config

end Sys2Proof
end

