-- ==== Sys2Proof/Machine/State.lean ====
section
/-! DEFINITION. Machine/State.lean: the state of the block (10_state.md R20), what the host does and sees at the two
ports (10_state.md R35, R36), and the reasons a step could stop. -/

namespace Sys2Proof.Machine

/-- The register array as (index, value) pairs in one canonical form: indexes strictly rising, no entry equal to what an
unlisted register reads as, which is 0 (10_state.md R24, R26, R42; assumption log entry 6). It is the block's one
storage space (20_memory.md R50); it is not byte-addressed. -/
abbrev Memory := List (Nat × Reg)

/-- What the host can do to the block (10_state.md R35, R36; 70_reset_and_hazards.md R240). -/
inductive HostEvent where
  /-- The host offers a command word and the block accepts it (10_state.md R36). -/
  | command (w : CmdWord)
  /-- The host is ready to accept a response: the oldest undelivered one, if any, is delivered (10_state.md R36). -/
  | takeResponse
  /-- The host asserts reset (70_reset_and_hazards.md R240 to R242). -/
  | reset
  deriving DecidableEq, Repr

/-- The errors a command can end in (60_exceptions.md R200 to R204). An error is an ordinary step, not a stop: the
failing command writes no state and answers with its code (R208). -/
inductive ErrorCode where
  | invalidPrecision
  | illegalCommand
  | noEstimator
  deriving DecidableEq, Repr

/-- The state. `v`, `prec` and `m` are the three items of 10_state.md R20; the other fields are the model's own picture of
the two ports. -/
structure State where
  /-- `V`, "estimator valid" (10_state.md R21). -/
  v            : Bool
  /-- `PREC`, the precision of the current estimator (10_state.md R22). -/
  prec         : BitVec 6
  /-- `M`, the register array (10_state.md R24). -/
  m            : Memory
  /-- What the host does next, oldest first: the program is the list of command words (10_state.md R33, 00_scope.md R14).
  Assumption log entry 1. -/
  inputs       : List HostEvent
  /-- Responses produced and not yet delivered, oldest first (10_state.md R36, 20_memory.md R59). -/
  rspPending   : List RspWord
  /-- Responses delivered, oldest first: the observation of the run (00_scope.md R15). Assumption log entry 17. -/
  rspDelivered : List RspWord
  deriving DecidableEq, Repr

/-- Reasons for a fault: none. No command of this block can fault (00_scope.md R15, 30_encoding.md R96, 60_exceptions.md
R208), so nobody raises one. Safe; assumption log entry 19. -/
inductive Fault where
  deriving DecidableEq, Repr

/-- Reasons for a refusal. -/
inductive Refusal where
  /-- Raised by an arm of `exec` for an instruction with no meaning yet. No arm of this model raises it. Safe. -/
  | notModelled (mnemonic : String)
  deriving DecidableEq, Repr

/-- The machine right after reset (10_state.md R40, 70_reset_and_hazards.md R241): `V = 0`, `PREC = 0`. The array's
contents are unspecified and unobservable; the model lists no register (DESIGN CHOICE, assumption log entry 4). No
command is offered and no response is pending (R241, R242). -/
def State.reset : State where
  v            := false
  prec         := 0#6
  m            := []
  inputs       := []
  rspPending   := []
  rspDelivered := []

end Sys2Proof.Machine
end

