-- ==== Sys2Proof/Machine/Flags.lean ====
section
/-! DEFINITION. Machine/Flags.lean: the status byte and the response word (30_encoding.md R88 to R90). The block has no
condition codes; `SAT` and the code live only in a response (10_state.md R32). -/

namespace Sys2Proof.Machine

/-- The four-bit codes of the errors (60_exceptions.md R204). -/
def errorCode : ErrorCode → BitVec 4
  | .invalidPrecision => 1#4
  | .illegalCommand   => 2#4
  | .noEstimator      => 3#4

/-- The code of success (30_encoding.md R89). -/
def okCode : BitVec 4 := 0#4

/-- The status byte: `SAT` in bit 7, bits 6:4 zero, the code in bits 3:0 (30_encoding.md R89). -/
def statusByte (sat : Bool) (code : BitVec 4) : BitVec 8 := BitVec.ofBool sat ++ (0#3 ++ code)

/-- `{status[7:0], data[63:0]}` (30_encoding.md R88). -/
def responseWord (status : BitVec 8) (data : Word64) : RspWord := status ++ data

/-- The `status` field of a response, bits 71:64 (30_encoding.md R88). -/
def responseStatus (w : RspWord) : BitVec 8 := w.extractLsb' 64 8

/-- The `data` field of a response, bits 63:0 (30_encoding.md R88). -/
def responseData (w : RspWord) : Word64 := w.extractLsb' 0 64

/-- The response of a command that succeeded and has no numeric result (30_encoding.md R90). -/
def okResponse : RspWord := responseWord (statusByte false okCode) 0#64

/-- The response of an error (60_exceptions.md R204): its code, and no data. -/
def errorResponse (e : ErrorCode) : RspWord := responseWord (statusByte false (errorCode e)) 0#64

/-- The response of a `COUNT` whose floored estimate is `n` (42_count.md R171, R172): `n` if it fits 64 bits, else
`2^64 - 1` with `SAT`. -/
def countResponse (n : Nat) : RspWord :=
  if 2 ^ 64 - 1 < n then responseWord (statusByte true okCode) (BitVec.allOnes 64)
  else responseWord (statusByte false okCode) (BitVec.ofNat 64 n)

end Sys2Proof.Machine
end

