-- ==== Sys2Proof/Machine/Ops.lean ====
section
/-! DEFINITION. Machine/Ops.lean: the named operations over the register array, the response port and reset. -/

namespace Sys2Proof.Machine

/-- The canonical form of the register array: indexes strictly rising, and no register listed that reads 0. -/
abbrev Memory.wf (m : Memory) : Prop := m.Pairwise (fun a b => a.1 < b.1) ∧ ∀ e ∈ m, e.2 ≠ 0#7

/-- `M[i]`: an unlisted register reads 0 (40_construction.md R112, 10_state.md R26). -/
def Memory.read : Memory → Nat → Reg
  | [], _ => 0#7
  | (j, x) :: rest, i => if i = j then x else Memory.read rest i

/-- `M[i] <- x`, keeping the canonical form: a register that becomes 0 is not listed. -/
def Memory.write : Memory → Nat → Reg → Memory
  | [], i, x => if x = 0#7 then [] else [(i, x)]
  | (j, y) :: rest, i, x =>
    if i < j then (if x = 0#7 then (j, y) :: rest else (i, x) :: (j, y) :: rest)
    else if i = j then (if x = 0#7 then rest else (i, x) :: rest)
    else (j, y) :: Memory.write rest i x

/-- Every register 0 (40_construction.md R112). Entries past the new estimator's last register are no state (10_state.md
R29), so none is kept; assumption log entry 6. -/
def Memory.cleared : Memory := []

/-- The number of registers, `m = 2^PREC` (10_state.md R23). -/
def registerCount (s : State) : Nat := 2 ^ s.prec.toNat

/-- `respond`: the command ends and its one response word joins the undelivered ones, in the order of acceptance
(00_scope.md section 6, 20_memory.md R59). -/
def respond (r : RspWord) (s : State) : State := { s with rspPending := s.rspPending ++ [r] }

/-- `raise`: taking an error, the block's only kind of exception (60_exceptions.md R208). It writes no state, saves
nothing, goes nowhere, and answers with the error's code (R204). There is no return from it (R209): the next command
runs as after a success. -/
def raiseError (e : ErrorCode) (s : State) : State := respond (errorResponse e) s

/-- A word that decodes to no command (30_encoding.md R91, R92; 60_exceptions.md R202), whatever `V` is. -/
def illegalCommand (s : State) : State := raiseError .illegalCommand s

/-- Reset (70_reset_and_hazards.md R241, R242): `V <- 0`, `PREC <- 0`, the array is not written, the responses not yet
delivered are abandoned. It produces no response (R240). What was delivered stays delivered, and what the host does
next is the host's. Assumption log entries 5 and 7. -/
def resetBlock (s : State) : State := { s with v := false, prec := 0#6, rspPending := [] }

/-- One delivery (10_state.md R36): the oldest undelivered response passes to the host; with none offered nothing is
transferred (assumption log entry 18). -/
def deliverResponse (s : State) : State :=
  match s.rspPending with
  | [] => s
  | r :: rest => { s with rspPending := rest, rspDelivered := s.rspDelivered ++ [r] }

/-- The next thing the host does, and the state in which it happens. -/
def nextEvent (s : State) : Option (HostEvent × State) :=
  match s.inputs with
  | [] => none
  | e :: rest => some (e, { s with inputs := rest })

/-- The host offers the command word `w` next, before whatever it was going to do (assumption log entry 1). -/
def offerCommand (w : CmdWord) (s : State) : State := { s with inputs := .command w :: s.inputs }

end Sys2Proof.Machine
end

