-- ==== Sys2Proof/Machine/Accept.lean ====
section
/-! DEFINITION. Machine/Accept.lean: what the block does with one thing the host does, and one step, over any meaning `run` of
the commands: the step is the same for every set of parameters (00_scope.md R7). -/

namespace Sys2Proof.Machine

/-- An accepted command word is decoded and executed as one atomic step (20_memory.md R58, 30_encoding.md R95); a decode
error comes before any look at the state (60_exceptions.md R207). -/
def acceptCommand (run : Instr → State → Host.Outcome State Fault Refusal) (w : CmdWord) (s : State) :
    Host.Outcome State Fault Refusal :=
  match decode w with
  | .ok i => run i s
  | .error _ => .next (illegalCommand s)

/-- One host event at a state (10_state.md R36, 70_reset_and_hazards.md R242). -/
def acceptEvent (run : Instr → State → Host.Outcome State Fault Refusal) (e : HostEvent) (s : State) :
    Host.Outcome State Fault Refusal :=
  match e with
  | .command w => acceptCommand run w s
  | .takeResponse => .next (deliverResponse s)
  | .reset => .next (resetBlock s)

/-- One step: the host's next event, or, with none, the block waits (00_scope.md R15, 60_exceptions.md R216; assumption log
entry 2). -/
def stepBy (run : Instr → State → Host.Outcome State Fault Refusal) (s : State) : Host.Outcome State Fault Refusal :=
  match nextEvent s with
  | none => .next s
  | some (e, t) => acceptEvent run e t

end Sys2Proof.Machine
end

