-- ==== Sys2Proof/Machine/Operands.lean ====
section
/-! DEFINITION. Machine/Operands.lean: what a command makes of its operand: the check of `NEW`'s precision
(40_construction.md R111), and the sub-block hash_rank_extractor (41_add.md R131 to R134). -/

namespace Sys2Proof.Machine

/-- The precisions `NEW` accepts, compared as signed integers (30_encoding.md R87, 40_construction.md R111). -/
def acceptsPrecision (P : Params) (p : Int) : Bool := decide ((P.pMin : Int) ≤ p) && decide (p ≤ (P.pMax : Int))

/-- `shl64` (00_scope.md section 6): bits shifted out at the top are discarded. The block calls it with amounts in
`[1, 63]` only (00_scope.md R8; assumption log entry 13). -/
def shl64 (x : Word64) (n : Nat) : Word64 := x <<< n

/-- `shr64` (00_scope.md section 6): the logical right shift, with amounts in `[1, 63]` only (00_scope.md R8; assumption
log entry 13). -/
def shr64 (x : Word64) (n : Nat) : Word64 := x >>> n

/-- `clz64` (00_scope.md section 6): `63 - floor(log2 x)`, and 64 for 0. -/
def clz64 (x : Word64) : Nat := if x = 0#64 then 64 else 63 - Nat.log2 x.toNat

/-- The register index of a hash: its top `p` bits (41_add.md R131). -/
def hashIndex (p : Nat) (h : Word64) : Nat := (shr64 h (64 - p)).toNat

/-- The rank field of a hash, shifted to the top of a 64-bit word (41_add.md R132). -/
def rankWord (p : Nat) (h : Word64) : Word64 := shl64 h p

/-- `RANK_ALLZERO(p)`: the rank of a hash whose rank field is all zeros (41_add.md R133, 90_conflicts.md C2; assumption log
entry 9). -/
def rankAllZero (P : Params) (p : Nat) : Nat :=
  match P.allZero with
  | .stated  => 64 - p + 1
  | .literal => 65

/-- The rank of a hash (41_add.md R133): `min(1 + clz64(w), RANK_ALLZERO(p))`. -/
def hashRank (P : Params) (p : Nat) (h : Word64) : Nat := min (1 + clz64 (rankWord p h)) (rankAllZero P p)

end Sys2Proof.Machine
end

