-- ==== Sys2Proof/Machine/Construction.lean ====
section
/-! DEFINITION. Machine/Construction.lean: the construction family, `NEW` (40_construction.md). -/

namespace Sys2Proof.Machine

/-- `NEW p` under the parameters `P` (40_construction.md R110): a precision out of range raises `InvalidPrecision` and
writes nothing (R111, R114); else every register becomes 0, `PREC` becomes `p` and `V` becomes 1 (R112, R113). -/
def newCommand (P : Params) (p : Int) (s : State) : State :=
  if acceptsPrecision P p then
    respond okResponse { s with v := true, prec := BitVec.ofNat 6 p.toNat, m := Memory.cleared }
  else raiseError .invalidPrecision s

/-- The meaning of `NEW` on this hardware instance (40_construction.md R110). -/
def execNew (p : Int) (s : State) : Host.Outcome State Fault Refusal := .next (newCommand Config.params p s)

end Sys2Proof.Machine
end

