-- ==== Sys2Proof/Machine/Estimation.lean ====
section
/-! DEFINITION. Machine/Estimation.lean: the estimation family, `COUNT` (42_count.md), the sub-block
cardinality_estimator_pipeline. Everything is computed in natural numbers, by the integer forms of R175 and by
the configuration function `LinCount` of R176; the spec's exact rational and real formulas are in Certificates/Slice0/Reference.lean. -/

namespace Sys2Proof.Machine

/-- The listed registers among the `m` of the estimator (entries past them are no state, 10_state.md R29). -/
def Memory.within (m : Nat) (regs : Memory) : Memory := regs.filter (fun e => decide (e.1 < m))

/-- `S * 2^127`, where `S = sum(i in [0, m-1]) 2^(-M[i])` (42_count.md R162): each listed register contributes
`2^(127 - M[i])` and each unlisted one, which reads 0, contributes `2^127`. The scale 127 is the largest value 7 bits can
hold, so every term is an integer; assumption log entry 12. -/
def scaledSum (m : Nat) (regs : Memory) : Nat :=
  ((regs.within m).map (fun e => 2 ^ (127 - e.2.toNat))).sum + (m - (regs.within m).length) * 2 ^ 127

/-- `c`, the number of registers equal to 0 (42_count.md R164). -/
def zeroCount (m : Nat) (regs : Memory) : Nat :=
  (regs.within m).countP (fun e => e.2 == 0#7) + (m - (regs.within m).length)

/-- The small-range test `E_raw <= SMALL_K * m` for `S = T / 2^127` (42_count.md R166), in the integer form of R175. -/
def smallRange (P : Params) (m T : Nat) : Bool :=
  decide (Config.smallKDen * P.alphaNum * m * 2 ^ 127 ≤ Config.smallKNum * P.alphaDen * T)

/-- `floor(E_raw)` for `S = T / 2^127` (42_count.md R163, R170), in the integer form of R175. -/
def rawFloor (P : Params) (m T : Nat) : Nat := P.alphaNum * m ^ 2 * 2 ^ 127 / (P.alphaDen * T)

/-- `n`, the floor of the estimate (42_count.md R160): linear counting in the small range when some register is zero
(R167, R176), the raw estimate otherwise (R168, R169). -/
def estimate (P : Params) (m : Nat) (regs : Memory) : Nat :=
  let T := scaledSum m regs
  let c := zeroCount m regs
  if smallRange P m T && c != 0 then P.linCount m c else rawFloor P m T

/-- `COUNT` under the parameters `P` (42_count.md R160); it writes no state (R173). -/
def countCommand (P : Params) (s : State) : State :=
  if s.v then respond (countResponse (estimate P (registerCount s) s.m)) s
  else raiseError .noEstimator s

/-- The meaning of `COUNT` on this hardware instance (42_count.md R160). -/
def execCount (s : State) : Host.Outcome State Fault Refusal := .next (countCommand Config.params s)

end Sys2Proof.Machine
end

