-- ==== Sys2Proof/Machine/Update.lean ====
section
/-! DEFINITION. Machine/Update.lean: the update family, `ADD` (41_add.md), and the sub-block register_update_controller
(R135, R136). -/

namespace Sys2Proof.Machine

/-- The register update: `M[idx]` is written only when the rank is greater (41_add.md R135, R136). A rank is at most 65,
so it fits the 7-bit register (00_scope.md R9; assumption log entry 14). -/
def updateRegister (idx rank : Nat) (m : Memory) : Memory :=
  if (m.read idx).toNat < rank then m.write idx (BitVec.ofNat 7 rank) else m

/-- `ADD H` under the parameters `P` (41_add.md R130). -/
def addCommand (P : Params) (h : Word64) (s : State) : State :=
  if s.v then
    respond okResponse
      { s with m := updateRegister (hashIndex s.prec.toNat h) (hashRank P s.prec.toNat h) s.m }
  else raiseError .noEstimator s

/-- The meaning of `ADD` on this hardware instance (41_add.md R130). -/
def execAdd (h : Word64) (s : State) : Host.Outcome State Fault Refusal := .next (addCommand Config.params h s)

end Sys2Proof.Machine
end

