-- ==== Sys2Proof/Machine/Dispatch.lean ====
section
/-! DEFINITION. Machine/Dispatch.lean: one arm per command of the opcode table (30_encoding.md R86). -/

namespace Sys2Proof.Machine

/-- The effect of one command on the state in which it is executed. -/
def exec (i : Instr) (s : State) : Host.Outcome State Fault Refusal :=
  match i with
  | .new p => Sys2Proof.Machine.execNew p s
  | .add h => Sys2Proof.Machine.execAdd h s
  | .count => Sys2Proof.Machine.execCount s

end Sys2Proof.Machine
end

