-- ==== Sys2Proof/Machine/Step.lean ====
section
/-! DEFINITION. Machine/Step.lean: one step of the block is the next thing the host does. The block does not fetch
(10_state.md R33). -/

namespace Sys2Proof.Machine

/-- One step of this hardware instance. -/
def step (s : State) : Host.Outcome State Fault Refusal := stepBy exec s

/-- The host offers the command word `tableWord nbits w` next, before whatever it was going to do. Nothing else of the state
changes. Assumption log entry 1. -/
def State.withFetchWord (s : State) (nbits w : Nat) : State := offerCommand (tableWord nbits w) s

end Sys2Proof.Machine
end

