-- ==== Sys2Proof/Machine/Parametric.lean ====
section
/-! DEFINITION. Machine/Parametric.lean: the whole block with its parameters as an argument (00_scope.md R7, 92_eei_decisions.md
last table). Machine/Dispatch.lean and Machine/Step.lean are this block at `Config.params`. -/

namespace Sys2Proof.Machine

/-- The effect of one command under the parameters `P`. -/
def execWith (P : Params) (i : Instr) (s : State) : Host.Outcome State Fault Refusal :=
  match i with
  | .new p => .next (newCommand P p s)
  | .add h => .next (addCommand P h s)
  | .count => .next (countCommand P s)

/-- One step under the parameters `P`. -/
def stepWith (P : Params) (s : State) : Host.Outcome State Fault Refusal := stepBy (execWith P) s

/-- The machine under the parameters `P`. -/
def coreWith (P : Params) : Host.Core :=
  { State := State, Fault := Fault, Refusal := Refusal, step := stepWith P, reset := State.reset }

end Sys2Proof.Machine
end

