-- ==== Sys2Proof/Safety.lean ====
section
/-! DEFINITION. Safety.lean: what a legal state and a legal response are, in the terms the statements use. -/

namespace Sys2Proof.Safety

open Sys2Proof.Machine

/-- The responses the block can emit (30_encoding.md R89, R90, and the table after them): success with or without an
estimate, saturation with all data bits set, and the three errors with no data. -/
def legalResponse (w : RspWord) : Bool :=
  responseStatus w == 0x00#8
  || (responseStatus w == 0x80#8 && responseData w == BitVec.allOnes 64)
  || ((responseStatus w == 0x01#8 || responseStatus w == 0x02#8 || responseStatus w == 0x03#8) && responseData w == 0#64)

/-- The legal values of `V` and `PREC` together (10_state.md R22). -/
abbrev ControlLegal (P : Params) (s : State) : Prop :=
  (s.v = true → P.pMin ≤ s.prec.toNat ∧ s.prec.toNat ≤ P.pMax) ∧ (s.v = false → s.prec = 0#6)

/-- The register array: in canonical form always, and while an estimator exists only its own `2^PREC` registers are listed
and each is within the bound of 10_state.md R25. -/
abbrev ArrayLegal (P : Params) (s : State) : Prop :=
  s.m.wf ∧ (s.v = true → ∀ e ∈ s.m, e.1 < registerCount s ∧ e.2.toNat ≤ rankAllZero P s.prec.toNat)

/-- Every response, delivered or not, is one the block can emit. -/
abbrev ResponsesLegal (s : State) : Prop :=
  s.rspPending.all legalResponse = true ∧ s.rspDelivered.all legalResponse = true

/-- The invariant of the block under the parameters `P`. -/
abbrev Inv (P : Params) (s : State) : Prop := ControlLegal P s ∧ ArrayLegal P s ∧ ResponsesLegal s

/-- Two states agree on the estimator: `V`, `PREC` and `M` (10_state.md R20). -/
abbrev SameEstimator (s t : State) : Prop := t.v = s.v ∧ t.prec = s.prec ∧ t.m = s.m

/-- Two states agree on everything but the register array (10_state.md R41). -/
abbrev SameButArray (s t : State) : Prop :=
  t.v = s.v ∧ t.prec = s.prec ∧ t.inputs = s.inputs ∧ t.rspPending = s.rspPending ∧ t.rspDelivered = s.rspDelivered

/-- The event ends the estimator's lifetime (00_scope.md section 7, 10_state.md R31) under the parameters `P`: reset, or a `NEW`
that succeeds. -/
def endsLifetime (P : Params) (e : HostEvent) : Bool :=
  match e with
  | .command w =>
    match decode w with
    | .ok (.new p) => acceptsPrecision P p
    | _ => false
  | .takeResponse => false
  | .reset => true

/-- Commands executed one after another, each on the state the one before it left (20_memory.md R58), stopping at the
first that does not answer a next state. -/
def execAll : List Instr → State → Host.Outcome State Fault Refusal
  | [], s => .next s
  | i :: rest, s =>
    match exec i s with
    | .next t => execAll rest t
    | .fault r => .fault r
    | .refused r => .refused r

/-- `n` steps of the machine. -/
def runSteps (n : Nat) (s : State) : Host.Outcome State Fault Refusal := core.run n s

/-- `n` steps of the machine under the parameters `P`. -/
def runStepsWith (P : Params) (n : Nat) (s : State) : Host.Outcome State Fault Refusal := (coreWith P).run n s

/-- The hash of an `ADD` word. -/
def addedHash (e : HostEvent) : Option Word64 :=
  match e with
  | .command w =>
    match decode w with
    | .ok (.add h) => some h
    | _ => none
  | .takeResponse => none
  | .reset => none

/-- The event is an accepted command. -/
def isCommand (e : HostEvent) : Bool :=
  match e with
  | .command _ => true
  | .takeResponse => false
  | .reset => false

end Sys2Proof.Safety
end

