-- ==== Sys2Proof/Certificates/Slice0/Reference.lean ====
section
/-! DEFINITION. Certificates/Slice0/Reference.lean: the estimate of 42_count.md exactly as the spec writes it, over the real
numbers (R161), for the statements to compare the machine with. It is no part of the machine. -/

namespace Sys2Proof.Reference

open Sys2Proof.Machine

/-- `m = 2^PREC` (10_state.md R23). -/
def registers (s : State) : Nat := 2 ^ s.prec.toNat

/-- `S`, the sum over all registers of `2^(-M[i])` (42_count.md R162). -/
noncomputable def sum (s : State) : ℝ := ∑ i ∈ Finset.range (registers s), (2 : ℝ) ^ (-((s.m.read i).toNat : ℤ))

/-- `c`, the number of registers equal to 0 (42_count.md R164). -/
def zeros (s : State) : Nat := ((Finset.range (registers s)).filter (fun i => s.m.read i = 0#7)).card

/-- `ALPHA` (00_scope.md R11). -/
noncomputable def alpha (P : Params) : ℝ := (P.alphaNum : ℝ) / P.alphaDen

/-- `E_raw = ALPHA * m^2 / S` (42_count.md R163). -/
noncomputable def raw (P : Params) (s : State) : ℝ := alpha P * (registers s : ℝ) ^ 2 / sum s

/-- `m * ln(m / c)` (42_count.md R167). -/
noncomputable def linear (s : State) : ℝ := (registers s : ℝ) * Real.log ((registers s : ℝ) / (zeros s : ℝ))

/-- `E` (42_count.md R160, R167 to R169). -/
noncomputable def estimate (P : Params) (s : State) : ℝ :=
  if raw P s ≤ 5 / 2 * (registers s : ℝ) ∧ zeros s ≠ 0 then linear s else raw P s

/-- The response word for a floored estimate `n` (42_count.md R171, R172), as a number: status byte, then data. -/
def responseOf (n : Nat) : RspWord :=
  if 2 ^ 64 - 1 < n then 0x80FFFFFFFFFFFFFFFF#72 else BitVec.ofNat 72 n

/-- The response of a successful `COUNT` (42_count.md R160). -/
noncomputable def response (P : Params) (s : State) : RspWord := responseOf ⌊estimate P s⌋₊

/-- `T = sum(i in [0, m-1]) 2^(64 - M[i])` (42_count.md R175). -/
def scaledSum64 (s : State) : Nat := ∑ i ∈ Finset.range (registers s), 2 ^ (64 - (s.m.read i).toNat)

/-- The rank field of a hash, `F = H[63-p : 0]`, as a number (41_add.md R132). -/
def rankField (p : Nat) (h : Word64) : Nat := h.toNat % 2 ^ (64 - p)

/-- The rank of a hash by the last of the equivalent forms of 41_add.md R133. -/
def rank (p : Nat) (h : Word64) : Nat :=
  if rankField p h = 0 then 64 - p + 1 else 64 - p - Nat.log2 (rankField p h)

/-- The index of a hash, `floor(H / 2^(64-p))` (41_add.md R131, 00_scope.md section 6). -/
def index (p : Nat) (h : Word64) : Nat := h.toNat / 2 ^ (64 - p)

end Sys2Proof.Reference
end

