-- ==== Sys2Proof/Machine/Assembler.lean ====
section
/-! DEFINITION. Machine/Assembler.lean: the assembler syntax of 30_encoding.md R97 to R99, from one line of text to command
words. A program is a straight list of commands with no labels and no macros (R99). The lexical details that R97 leaves
open are in assumption log entry 15. -/

namespace Sys2Proof.Machine

/-- What one line of a program says. -/
inductive AsmLine where
  /-- A blank line, or a comment only. -/
  | empty
  /-- `new <int>`, `add <u64>` or `count` (30_encoding.md R97). -/
  | command (i : Instr)
  /-- `.word` and 18 hexadecimal digits (30_encoding.md R97): any command word, an illegal one too. -/
  | word (w : CmdWord)
  /-- `adde "<text>"`: the element whose bytes are the text's (30_encoding.md R98). -/
  | element (bytes : List Byte)
  deriving DecidableEq, Repr

/-- A space or a tab. -/
def isBlank (c : Char) : Bool := c == ' ' || c == '\t'

/-- A letter in lower case; mnemonics are case-insensitive (30_encoding.md R97). -/
def lowerChar (c : Char) : Char := if 'A'.toNat ≤ c.toNat ∧ c.toNat ≤ 'Z'.toNat then Char.ofNat (c.toNat + 32) else c

/-- The value of a decimal or hexadecimal digit. DESIGN CHOICE, assumption log entry 15: the digits a to f are read in either
letter case, which 30_encoding.md R97 leaves open. -/
def digitValue (c : Char) : Option Nat :=
  if '0'.toNat ≤ c.toNat ∧ c.toNat ≤ '9'.toNat then some (c.toNat - '0'.toNat)
  else if 'a'.toNat ≤ c.toNat ∧ c.toNat ≤ 'f'.toNat then some (c.toNat - 'a'.toNat + 10)
  else if 'A'.toNat ≤ c.toNat ∧ c.toNat ≤ 'F'.toNat then some (c.toNat - 'A'.toNat + 10)
  else none

/-- Digits of a numeral in the given base, with `_` allowed between two digits (30_encoding.md R97). -/
def digitsValue (base : Nat) : Nat → Bool → List Char → Option Nat
  | acc, afterDigit, [] => if afterDigit then some acc else none
  | acc, afterDigit, c :: cs =>
    if c = '_' then (if afterDigit then digitsValue base acc false cs else none)
    else match digitValue c with
      | some d => if d < base then digitsValue base (acc * base + d) true cs else none
      | none => none

/-- A numeral: decimal, or hexadecimal with `0x` (30_encoding.md R97). -/
def numeral : List Char → Option Nat
  | '0' :: 'x' :: cs => digitsValue 16 0 false cs
  | cs => digitsValue 10 0 false cs

/-- A numeral with a leading `-` allowed (30_encoding.md R97). -/
def signedNumeral : List Char → Option Int
  | '-' :: cs => (numeral cs).map (fun n => -(n : Int))
  | cs => (numeral cs).map (fun n => (n : Int))

/-- The text up to a comment (30_encoding.md R97). -/
def stripComment (cs : List Char) : List Char := cs.takeWhile (fun c => c != ';')

/-- The text without its leading and trailing blanks. -/
def trimBlanks (cs : List Char) : List Char := ((cs.dropWhile isBlank).reverse.dropWhile isBlank).reverse

/-- The value of exactly `n` hexadecimal digits. -/
def hexValue (n : Nat) (cs : List Char) : Option Nat :=
  if cs.length = n ∧ '_' ∉ cs then digitsValue 16 0 false cs else none

/-- The bytes of a text: its UTF-8 encoding, no terminator (30_encoding.md R98). -/
def textBytes (cs : List Char) : List Byte := cs.flatMap (fun c => (String.utf8EncodeChar c).map UInt8.toBitVec)

/-- The operand of `adde`: the text between two quotes, exactly as written, and nothing after it but a comment
(30_encoding.md R98). -/
def quotedText (cs : List Char) : Option (List Char) :=
  match cs.dropWhile isBlank with
  | '"' :: rest =>
    match rest.dropWhile (fun c => c != '"') with
    | '"' :: after => if trimBlanks (stripComment after) = [] then some (rest.takeWhile (fun c => c != '"')) else none
    | _ => none
  | _ => none

/-- A command if its operand is in the range of 30_encoding.md R97. -/
def commandInRange (i : Instr) : Option AsmLine := if i.wellFormed then some (.command i) else none

/-- One line after its mnemonic, by 30_encoding.md R97 and R98. -/
def parseOperand (mnemonic rest : List Char) : Option AsmLine :=
  let arg := trimBlanks (stripComment rest)
  if mnemonic = ['n', 'e', 'w'] then (signedNumeral arg).bind (fun p => commandInRange (.new p))
  else if mnemonic = ['a', 'd', 'd'] then
    (numeral arg).bind (fun n => if n < 2 ^ 64 then commandInRange (.add (BitVec.ofNat 64 n)) else none)
  else if mnemonic = ['c', 'o', 'u', 'n', 't'] then (if arg = [] then commandInRange .count else none)
  else if mnemonic = ['.', 'w', 'o', 'r', 'd'] then
    (hexValue 18 (arg.filter (fun c => !isBlank c))).map (fun n => .word (BitVec.ofNat 72 n))
  else if mnemonic = ['a', 'd', 'd', 'e'] then (quotedText rest).map (fun t => .element (textBytes t))
  else if mnemonic = [] then (if arg = [] then some .empty else none)
  else none

/-- One line of a program (30_encoding.md R97 to R99); `none` where the line has no meaning. DESIGN CHOICE, assumption log entry
15: the first word ends at a blank, a `;` or a quote, so a quote may follow `adde` at once and every other operand needs a
blank before it; and the directive `.word` is read in either letter case, as R97 says of mnemonics only. -/
def parseLine (line : List Char) : Option AsmLine :=
  let text := line.dropWhile isBlank
  let isWord := fun c => !isBlank c && c != ';' && c != '"'
  parseOperand ((text.takeWhile isWord).map lowerChar) (text.dropWhile isWord)

/-- The command words of a line (30_encoding.md R97, R98): `adde` is `add` of the element's hash. -/
def AsmLine.words : AsmLine → List CmdWord
  | .empty => []
  | .command i => [encode i]
  | .word w => [w]
  | .element bytes => [encode (.add (Config.hash bytes))]

/-- A program, line by line (30_encoding.md R99). -/
def assemble : List (List Char) → Option (List CmdWord)
  | [] => some []
  | line :: rest =>
    match parseLine line, assemble rest with
    | some l, some ws => some (l.words ++ ws)
    | _, _ => none

/-- A hexadecimal digit, in upper case (DESIGN CHOICE, assumption log entry 15; 95_test_vectors.md writes upper case). -/
def hexDigit (n : Nat) : Char := if n < 10 then Char.ofNat (n + '0'.toNat) else Char.ofNat (n - 10 + 'A'.toNat)

/-- The lowest `k` hexadecimal digits of a number, the most significant first. -/
def hexDigits : Nat → Nat → List Char
  | 0, _ => []
  | k + 1, n => hexDigits k (n / 16) ++ [hexDigit (n % 16)]

/-- A command word in a listing: the opcode byte, a space, the operand (30_encoding.md R97). -/
def listing (w : CmdWord) : List Char :=
  hexDigits 2 (opcodeField w).toNat ++ [' '] ++ hexDigits 16 (operandField w).toNat

end Sys2Proof.Machine
end

