-- ==== Sys2Proof/Machine/Ports.lean ====
section
/-! DEFINITION. Machine/Ports.lean: the output ports of the block as functions of the state (10_state.md R35, R36). -/

namespace Sys2Proof.Machine

/-- `cmd_ready`: the model's block can always accept a command (70_reset_and_hazards.md R249 allows it to be deasserted
for a finite time, which is a matter of timing; assumption log entry 3). -/
def cmdReady (_ : State) : Bool := true

/-- `rsp_valid`: the block offers a response (10_state.md R35). -/
def rspValid (s : State) : Bool := !s.rspPending.isEmpty

/-- `rsp_word` while `rsp_valid` is asserted: the oldest undelivered response (10_state.md R36, 20_memory.md R59). -/
def rspWord (s : State) : Option RspWord := s.rspPending.head?

end Sys2Proof.Machine
end

