-- ==== Sys2Proof/Certificates/Slice0/Obligations.lean ====
section
/-! DEFINITION. Certificates/Slice0/Obligations.lean: the statements for the provers. Response words are written out as the
72-bit numbers of 30_encoding.md's table of responses: `OK` is 0, `InvalidPrecision` 0x01 and 16 zeros, `IllegalCommand`
0x02 and 16 zeros, `NoEstimator` 0x03 and 16 zeros. -/

open Sys2Proof Sys2Proof.Machine Sys2Proof.Safety

/-! ### Construction: NEW (40_construction.md) -/

/-- R112: a `NEW` in range completes, and leaves `V = 1`, `PREC = p`, every register of the new estimator 0, the response
`OK`, and nothing else changed. -/
def Obligations.NewBuildsFreshEstimator : Prop :=
  ∀ (p : Int) (s : State), 4 ≤ p → p ≤ 16 →
    ∃ t, exec (.new p) s = .next t ∧ t.v = true ∧ (t.prec.toNat : Int) = p ∧
      (∀ i, i < 2 ^ p.toNat → t.m.read i = 0#7) ∧
      t.rspPending = s.rspPending ++ [0x000000000000000000#72] ∧
      t.inputs = s.inputs ∧ t.rspDelivered = s.rspDelivered

/-- R114: a `NEW` out of range answers `InvalidPrecision` and changes nothing else. -/
def Obligations.FailedNewWritesNothing : Prop :=
  ∀ (p : Int) (s : State), p < 4 ∨ 16 < p →
    exec (.new p) s = .next { s with rspPending := s.rspPending ++ [0x010000000000000000#72] }

/-- R111, R113 for every admissible parameter pair: `NEW p` succeeds exactly when `P_MIN <= p <= P_MAX`; every `p <= 0` and
every `p >= 64` is refused. -/
def Obligations.NewSucceedsExactlyInRange : Prop :=
  ∀ (P : Params) (p : Int) (s : State), P.Admissible →
    (((P.pMin : Int) ≤ p ∧ p ≤ (P.pMax : Int)) →
      (newCommand P p s).v = true ∧ ((newCommand P p s).prec.toNat : Int) = p ∧
      (∀ i, i < 2 ^ p.toNat → (newCommand P p s).m.read i = 0#7) ∧
      (newCommand P p s).rspPending = s.rspPending ++ [0x000000000000000000#72]) ∧
    (¬((P.pMin : Int) ≤ p ∧ p ≤ (P.pMax : Int)) →
      newCommand P p s = { s with rspPending := s.rspPending ++ [0x010000000000000000#72] }) ∧
    ((p ≤ 0 ∨ 64 ≤ p) → newCommand P p s = { s with rspPending := s.rspPending ++ [0x010000000000000000#72] })

/-! ### Update: ADD (41_add.md) -/

/-- R131, R132: the index is the top `p` bits and the rank field the other `64 - p`, which the shifted word holds at its
top; both shift amounts are in `[1, 63]`. -/
def Obligations.HashSplitsIntoIndexAndRankField : Prop :=
  ∀ (p : Nat) (h : Word64), 1 ≤ p → p ≤ 63 →
    (1 ≤ 64 - p ∧ 64 - p ≤ 63) ∧
    hashIndex p h = (h.extractLsb' (64 - p) p).toNat ∧ hashIndex p h < 2 ^ p ∧
    Reference.rankField p h = (h.extractLsb' 0 (64 - p)).toNat ∧
    (rankWord p h).toNat = Reference.rankField p h * 2 ^ p ∧
    (∀ j, j < p → (rankWord p h).getLsbD j = false) ∧
    h.toNat = hashIndex p h * 2 ^ (64 - p) + Reference.rankField p h

/-- R133: the three equivalent forms of the rank. -/
def Obligations.RankEquivalentForms : Prop :=
  ∀ (P : Params) (p : Nat) (h : Word64), P.allZero = .stated → 1 ≤ p → p ≤ 63 →
    hashRank P p h = min (1 + (BitVec.clz (h <<< p)).toNat) (64 - p + 1) ∧
    hashRank P p h = 1 + (BitVec.clz (h.extractLsb' 0 (64 - p))).toNat ∧
    hashRank P p h = Reference.rank p h

/-- R134: the range of the rank, and exactly which hashes have which rank. -/
def Obligations.RankRangeAndValues : Prop :=
  ∀ (P : Params) (p : Nat) (h : Word64), P.allZero = .stated → 1 ≤ p → p ≤ 63 →
    1 ≤ hashRank P p h ∧ hashRank P p h ≤ 64 - p + 1 ∧
    (hashRank P p h = 1 ↔ h.getLsbD (63 - p) = true) ∧
    (∀ k, 2 ≤ k → k ≤ 64 - p →
      (hashRank P p h = k ↔
        2 ^ (64 - p - k) ≤ Reference.rankField p h ∧ Reference.rankField p h < 2 ^ (64 - p - k + 1))) ∧
    (hashRank P p h = 64 - p + 1 ↔ Reference.rankField p h = 0)

/-- 92_eei_decisions.md D7, the optional reading: a rank of 65 for an all-zero rank field, and no other difference. -/
def Obligations.LiteralReadingDiffersOnlyAtZero : Prop :=
  ∀ (P : Params) (p : Nat) (h : Word64), P.allZero = .literal → 1 ≤ p → p ≤ 63 →
    hashRank P p h = if Reference.rankField p h = 0 then 65 else Reference.rank p h

/-- R135, R137: with an estimator, `ADD` completes for every hash; the register of the hash's index becomes the maximum of
its value and the rank, every other register and everything else is unchanged, and the response is `OK`. -/
def Obligations.AddTakesTheMaximum : Prop :=
  ∀ (h : Word64) (s : State), s.v = true →
    ∃ t, exec (.add h) s = .next t ∧
      (∀ i, (t.m.read i).toNat =
        if i = Reference.index s.prec.toNat h then max (s.m.read i).toNat (Reference.rank s.prec.toNat h)
        else (s.m.read i).toNat) ∧
      t.v = s.v ∧ t.prec = s.prec ∧ t.inputs = s.inputs ∧ t.rspDelivered = s.rspDelivered ∧
      t.rspPending = s.rspPending ++ [0x000000000000000000#72]

/-- R203: `ADD` and `COUNT` raise `NoEstimator` exactly when `V = 0`, and then write nothing. -/
def Obligations.NoEstimatorExactlyWithoutOne : Prop :=
  ∀ (i : Instr) (s : State), i = .count ∨ (∃ h, i = .add h) →
    (s.v = false → exec i s = .next { s with rspPending := s.rspPending ++ [0x030000000000000000#72] }) ∧
    (s.v = true → ∃ t r, exec i s = .next t ∧ t.rspPending = s.rspPending ++ [r] ∧ r.extractLsb' 64 4 = 0#4)

/-- R139: a second `ADD` of the same hash, at any later point of the same lifetime, changes no state. -/
def Obligations.RepeatedAddChangesNothing : Prop :=
  ∀ (h : Word64) (n : Nat) (s t u : State), s.v = true → exec (.add h) s = .next t →
    (∀ e ∈ t.inputs.take n, endsLifetime Config.params e = false) → runSteps n t = .next u →
    exec (.add h) u = .next { u with rspPending := u.rspPending ++ [0x000000000000000000#72] }

/-- R140: the order of the `ADD`s of a lifetime does not matter, whatever commands that change no state (`COUNT`, a `NEW`
that fails, an illegal word), deliveries and waits stand between them: two sequences of host events with the same multiset of
hashes end in the same estimator, in which every register is the maximum of its starting value and the ranks of the hashes
with its index. -/
def Obligations.AddOrderDoesNotMatter : Prop :=
  ∀ (es fs : List HostEvent) (s : State), s.v = true → s.m.wf →
    (∀ e ∈ es, endsLifetime Config.params e = false) → (∀ e ∈ fs, endsLifetime Config.params e = false) →
    (es.filterMap addedHash).Perm (fs.filterMap addedHash) →
    ∃ t u, runSteps es.length { s with inputs := es } = .next t ∧ runSteps fs.length { s with inputs := fs } = .next u ∧
      SameEstimator t u ∧ t.v = true ∧ t.prec = s.prec ∧
      ∀ i, (t.m.read i).toNat =
        (((es.filterMap addedHash).filter (fun h => Reference.index s.prec.toNat h = i)).map
          (Reference.rank s.prec.toNat)).foldr max (s.m.read i).toNat

/-- R141: the closed form of the array after a `NEW` and any `ADD`s. -/
def Obligations.ClosedFormOfRegisters : Prop :=
  ∀ (p : Int) (hs : List Word64) (s : State), 4 ≤ p → p ≤ 16 →
    ∃ t, execAll (.new p :: hs.map Instr.add) s = .next t ∧
      ∀ i, i < 2 ^ p.toNat → (t.m.read i).toNat =
        ((hs.filter (fun h => Reference.index p.toNat h = i)).map (Reference.rank p.toNat)).foldr max 0

/-- R26: within a lifetime a register is 0 exactly when no `ADD` with its index has executed. -/
def Obligations.ZeroExactlyWhenNeverHit : Prop :=
  ∀ (p : Int) (hs : List Word64) (s : State), 4 ≤ p → p ≤ 16 →
    ∃ t, execAll (.new p :: hs.map Instr.add) s = .next t ∧
      ∀ i, i < 2 ^ p.toNat → (t.m.read i = 0#7 ↔ ∀ h ∈ hs, Reference.index p.toNat h ≠ i)

/-- R246: two `ADD`s to one index, back to back. -/
def Obligations.BackToBackAddsKeepBoth : Prop :=
  ∀ (h k : Word64) (s : State), s.v = true →
    Reference.index s.prec.toNat h = Reference.index s.prec.toNat k →
    ∃ t, execAll [.add h, .add k] s = .next t ∧
      (t.m.read (Reference.index s.prec.toNat h)).toNat =
        max (s.m.read (Reference.index s.prec.toNat h)).toNat
          (max (Reference.rank s.prec.toNat h) (Reference.rank s.prec.toNat k))

/-- R244: `ADD`s behind a `NEW` that fails meet `NoEstimator`, or the estimator that already existed. -/
def Obligations.AddBehindFailedNew : Prop :=
  ∀ (p : Int) (h : Word64) (s : State), p < 4 ∨ 16 < p →
    (s.v = false → execAll [.new p, .add h] s =
      .next { s with rspPending := s.rspPending ++ [0x010000000000000000#72, 0x030000000000000000#72] }) ∧
    (s.v = true → ∃ t u, execAll [.new p, .add h] s = .next t ∧ exec (.add h) s = .next u ∧
      t.v = true ∧ t.prec = s.prec ∧ t.m = u.m ∧
      t.rspPending = s.rspPending ++ [0x010000000000000000#72, 0x000000000000000000#72])

/-! ### Estimation: COUNT (42_count.md) -/

/-- R173: `COUNT` completes in every state and writes none. -/
def Obligations.CountWritesNoState : Prop :=
  ∀ s : State, ∃ r, exec .count s = .next { s with rspPending := s.rspPending ++ [r] }

/-- R160, R162, R164, R170, R172: in every legal state with an estimator, `COUNT` answers the floor of the estimate that the
spec writes over the real numbers. -/
def Obligations.CountAnswersTheExactEstimate : Prop :=
  ∀ s : State, Inv Config.params s → s.v = true →
    exec .count s = .next { s with rspPending := s.rspPending ++ [Reference.response Config.params s] }

/-- R160 for every admissible parameter set, with `LinCount` as any configuration function (R176): the sum, the zero count, the
test, the choice of branch, the raw floor and the saturation are exact. -/
def Obligations.CountExactUpToLogarithm : Prop :=
  ∀ (P : Params) (s : State), P.Admissible → s.m.wf → s.v = true →
    countCommand P s = { s with rspPending := s.rspPending ++ [Reference.responseOf
      (if Reference.raw P s ≤ 5 / 2 * (Reference.registers s : ℝ) ∧ Reference.zeros s ≠ 0
        then P.linCount (Reference.registers s) (Reference.zeros s) else ⌊Reference.raw P s⌋₊)] }

/-- R176: for the default precisions the linear-counting value is the floor of `m * ln(m/c)`, the one natural number with
`e^n <= (m/c)^m < e^(n+1)`. -/
def Obligations.LinearCountingIsExact : Prop :=
  ∀ p c : Nat, 4 ≤ p → p ≤ 16 → 1 ≤ c → c ≤ 2 ^ p →
    linCount (2 ^ p) c = ⌊((2 ^ p : Nat) : ℝ) * Real.log (((2 ^ p : Nat) : ℝ) / c)⌋₊ ∧
    Real.exp (linCount (2 ^ p) c) ≤ (((2 ^ p : Nat) : ℝ) / c) ^ (2 ^ p) ∧
    (((2 ^ p : Nat) : ℝ) / c) ^ (2 ^ p) < Real.exp (linCount (2 ^ p) c + 1)

/-- The model's choice of arithmetic, assumption log entry 11, for every admissible precision: the fixed-point value is
never too large, and it is too small only if `m * ln(m/c)` lies within `2^(-100)` above an integer. -/
def Obligations.LinearCountingNeverTooLarge : Prop :=
  ∀ m c : Nat, 1 ≤ c → c ≤ m → m ≤ 2 ^ 63 →
    (linCount m c : ℝ) ≤ (m : ℝ) * Real.log ((m : ℝ) / c) ∧
    (m : ℝ) * Real.log ((m : ℝ) / c) < (linCount m c : ℝ) + 1 + 1 / 2 ^ 100

/-- R166: the small-range test of the machine is the spec's, in both of its forms, and equality never holds. -/
def Obligations.SmallRangeTest : Prop :=
  ∀ s : State, s.m.wf →
    (smallRange Config.params (registerCount s) (scaledSum (registerCount s) s.m) = true ↔
      Reference.raw Config.params s ≤ 5 / 2 * (Reference.registers s : ℝ)) ∧
    (Reference.raw Config.params s ≤ 5 / 2 * (Reference.registers s : ℝ) ↔
      317608 / 1000000 * (Reference.registers s : ℝ) ≤ Reference.sum s) ∧
    Reference.raw Config.params s ≠ 5 / 2 * (Reference.registers s : ℝ)

/-- R175: the integer forms of the raw branch, with `T` scaled by `2^64`. -/
def Obligations.IntegerFormsOfRawBranch : Prop :=
  ∀ s : State, Inv Config.params s → s.v = true →
    0 < Reference.scaledSum64 s ∧
    (Reference.raw Config.params s ≤ 5 / 2 * (Reference.registers s : ℝ) ↔
      2 * 39701 * Reference.registers s * 2 ^ 64 ≤ 5 * 50000 * Reference.scaledSum64 s) ∧
    rawFloor Config.params (registerCount s) (scaledSum (registerCount s) s.m) =
      39701 * Reference.registers s ^ 2 * 2 ^ 64 / (50000 * Reference.scaledSum64 s) ∧
    ⌊Reference.raw Config.params s⌋₊ =
      39701 * Reference.registers s ^ 2 * 2 ^ 64 / (50000 * Reference.scaledSum64 s) ∧
    ((2 : ℝ) ^ 64 ≤ Reference.raw Config.params s ↔
      50000 * Reference.scaledSum64 s ≤ 39701 * Reference.registers s ^ 2)

/-- R163, R165: the bounds of `S` and of the raw estimate. -/
def Obligations.SumAndRawEstimateBounds : Prop :=
  ∀ s : State, Inv Config.params s → s.v = true →
    (Reference.registers s : ℝ) / 2 ^ (64 - s.prec.toNat + 1) ≤ Reference.sum s ∧
    Reference.sum s ≤ Reference.registers s ∧ 0 < Reference.sum s ∧
    (Reference.sum s = Reference.registers s ↔ ∀ i, i < Reference.registers s → s.m.read i = 0#7) ∧
    (Reference.sum s = (Reference.registers s : ℝ) / 2 ^ (64 - s.prec.toNat + 1) ↔
      ∀ i, i < Reference.registers s → (s.m.read i).toNat = 64 - s.prec.toNat + 1) ∧
    Reference.alpha Config.params * Reference.registers s ≤ Reference.raw Config.params s ∧
    Reference.raw Config.params s ≤ Reference.alpha Config.params * 2 ^ 65

/-- R171: `COUNT` saturates exactly when the raw estimate is at least `2^64`, and `SAT` says so. -/
def Obligations.CountSaturatesExactlyAbove64Bits : Prop :=
  ∀ s : State, Inv Config.params s → s.v = true →
    ∃ r, exec .count s = .next { s with rspPending := s.rspPending ++ [r] } ∧
      ((2 : ℝ) ^ 64 ≤ Reference.raw Config.params s → r = 0x80FFFFFFFFFFFFFFFF#72) ∧
      (Reference.raw Config.params s < (2 : ℝ) ^ 64 → r.extractLsb' 64 8 = 0x00#8)

/-- R177: a `COUNT` right after a successful `NEW` answers 0. -/
def Obligations.FreshEstimatorCountsZero : Prop :=
  ∀ (p : Int) (s : State), 4 ≤ p → p ≤ 16 →
    ∃ t, exec (.new p) s = .next t ∧
      exec .count t = .next { t with rspPending := t.rspPending ++ [0x000000000000000000#72] }

/-- 95_test_vectors.md section 2.3, the sufficient condition: with enough empty registers the answer is the linear-counting
value, whatever the other registers hold. -/
def Obligations.ManyEmptyRegistersGiveLinearCounting : Prop :=
  ∀ s : State, Inv Config.params s → s.v = true → 317608 * Reference.registers s ≤ 1000000 * Reference.zeros s →
    exec .count s = .next
      { s with rspPending := s.rspPending ++ [BitVec.ofNat 72 (linCount (Reference.registers s) (Reference.zeros s))] }

/-- R179: the estimate depends only on how many registers hold each value. -/
def Obligations.CountDependsOnlyOnHistogram : Prop :=
  ∀ s t : State, Inv Config.params s → Inv Config.params t → s.v = true → t.v = true → s.prec = t.prec →
    (∀ x : Reg, ((Finset.range (Reference.registers s)).filter (fun i => s.m.read i = x)).card =
      ((Finset.range (Reference.registers t)).filter (fun i => t.m.read i = x)).card) →
    ∃ r, exec .count s = .next { s with rspPending := s.rspPending ++ [r] } ∧
      exec .count t = .next { t with rspPending := t.rspPending ++ [r] }

/-- R174: two `COUNT`s on the same estimator answer the same word, whatever else differs. -/
def Obligations.CountIsRepeatable : Prop :=
  ∀ s t : State, SameEstimator s t →
    ∃ r, exec .count s = .next { s with rspPending := s.rspPending ++ [r] } ∧
      exec .count t = .next { t with rspPending := t.rspPending ++ [r] }

/-! ### Encoding (30_encoding.md) -/

/-- Decode and encode agree on every well-formed instruction, with every operand (R83 to R87, R95, R97). -/
def Obligations.DecodeOfEncode : Prop :=
  ∀ i : Instr, i.wellFormed = true → decode (encode i) = .ok i

/-- Every word that decodes is the encoding of the well-formed instruction it decodes to (R95). -/
def Obligations.EncodeOfDecode : Prop :=
  ∀ (w : CmdWord) (i : Instr), decode w = .ok i → i.wellFormed = true ∧ encode i = w

/-- R86: the decoder follows the mask and match table; a word selects at most one row, and none exactly when it is
illegal. -/
def Obligations.DecodeFollowsOpcodeTable : Prop :=
  ∀ w : CmdWord,
    ((∃ p, decode w = .ok (.new p)) ↔ w &&& 0xFF0000000000000000#72 = 0x010000000000000000#72) ∧
    ((∃ h, decode w = .ok (.add h)) ↔ w &&& 0xFF0000000000000000#72 = 0x020000000000000000#72) ∧
    (decode w = .ok .count ↔ w &&& 0xFFFFFFFFFFFFFFFFFF#72 = 0x030000000000000000#72) ∧
    (opcodeTable.countP (fun r => r.selects w)) ≤ 1 ∧
    ((∃ why, decode w = .error why) ↔ opcodeTable.countP (fun r => r.selects w) = 0)

/-- R91, R92: an illegal word answers `IllegalCommand` and changes nothing, whatever `V` is. -/
def Obligations.IllegalWordsAnswerIllegalCommand : Prop :=
  ∀ (s : State) (w : CmdWord) (rest : List HostEvent), s.inputs = .command w :: rest →
    (w.toNat / 2 ^ 64 ≠ 1 ∧ w.toNat / 2 ^ 64 ≠ 2 ∧ w.toNat / 2 ^ 64 ≠ 3 ∨
      w.toNat / 2 ^ 64 = 3 ∧ w.toNat % 2 ^ 64 ≠ 0) →
    step s = .next { s with inputs := rest, rspPending := s.rspPending ++ [0x020000000000000000#72] }

/-- R202: `IllegalCommand` is raised for no other word. -/
def Obligations.LegalWordsNeverAnswerIllegalCommand : Prop :=
  ∀ (s t : State) (w : CmdWord) (rest : List HostEvent), s.inputs = .command w :: rest →
    (w.toNat / 2 ^ 64 = 1 ∨ w.toNat / 2 ^ 64 = 2 ∨ w.toNat = 3 * 2 ^ 64) → step s = .next t →
    ∃ r, t.rspPending = s.rspPending ++ [r] ∧ r.extractLsb' 64 4 ≠ 2#4

/-- Words written out from the formats of R83 to R85, and what they decode to. -/
def Obligations.WordsDecodeAsTheSpecWritesThem : Prop :=
  decode 0x010000000000000010#72 = .ok (.new 16) ∧
  decode 0x01FFFFFFFFFFFFFFFF#72 = .ok (.new (-1)) ∧
  decode 0x027C5F1E7EC483E214#72 = .ok (.add 0x7C5F1E7EC483E214#64) ∧
  decode 0x030000000000000000#72 = .ok .count

/-! ### The step (20_memory.md, 60_exceptions.md) -/

/-- A step at a command word runs the decoded instruction on the state with that word taken from the port (R58, R95). -/
def Obligations.StepRunsTheDecodedInstruction : Prop :=
  ∀ (s : State) (w : CmdWord) (rest : List HostEvent) (i : Instr), s.inputs = .command w :: rest → decode w = .ok i →
    step s = exec i { s with inputs := rest }

/-- A word placed by `withFetchWord` is the very next thing the block runs. How the host's words reach the block is the
model's own picture of the ports: assumption log entries 1 and 16. -/
def Obligations.StepRunsTheOfferedWord : Prop :=
  ∀ (s : State) (nbits w : Nat) (i : Instr), decodeTableWord nbits w = some i →
    step (s.withFetchWord nbits w) = exec i s

/-- With nothing offered the block waits: the model's reading of 00_scope.md R15 and 60_exceptions.md R216, assumption log
entry 2. -/
def Obligations.IdleBlockWaits : Prop :=
  ∀ s : State, s.inputs = [] → step s = .next s

/-- R96, R59: every step answers a next state, and every accepted command produces exactly one response, which is one the
block can emit. -/
def Obligations.EveryStepAnswers : Prop :=
  (∀ s : State, ∃ t, step s = .next t) ∧
  ∀ (s : State) (w : CmdWord) (rest : List HostEvent), s.inputs = .command w :: rest →
    ∃ t r, step s = .next t ∧ t.inputs = rest ∧ t.rspPending = s.rspPending ++ [r] ∧
      t.rspDelivered = s.rspDelivered ∧ legalResponse r = true

/-- R89, R90: the status bytes the block emits and exactly when it emits each; `SAT` only for a successful `COUNT` whose
estimate exceeds `2^64 - 1`; the data of a successful `COUNT` is the (saturated) estimate, and of every other response 0. -/
def Obligations.StatusByteRules : Prop :=
  ∀ (s t : State) (w : CmdWord) (rest : List HostEvent) (r : RspWord), s.inputs = .command w :: rest →
    step s = .next t → t.rspPending = s.rspPending ++ [r] →
    (r.toNat / 2 ^ 64 = 0x00 ∨ r.toNat / 2 ^ 64 = 0x80 ∨ r.toNat / 2 ^ 64 = 0x01 ∨ r.toNat / 2 ^ 64 = 0x02 ∨
      r.toNat / 2 ^ 64 = 0x03) ∧
    (r.toNat / 2 ^ 64 = 0x01 ↔ ∃ p, decode w = .ok (.new p) ∧ (p < 4 ∨ 16 < p)) ∧
    (r.toNat / 2 ^ 64 = 0x02 ↔ ∃ why, decode w = .error why) ∧
    (r.toNat / 2 ^ 64 = 0x03 ↔ s.v = false ∧ (decode w = .ok .count ∨ ∃ h, decode w = .ok (.add h))) ∧
    (r.toNat / 2 ^ 64 = 0x80 ↔ decode w = .ok .count ∧ s.v = true ∧
      2 ^ 64 - 1 < estimate Config.params (registerCount s) s.m) ∧
    (decode w = .ok .count ∧ s.v = true →
      r.toNat % 2 ^ 64 = min (estimate Config.params (registerCount s) s.m) (2 ^ 64 - 1)) ∧
    (¬(decode w = .ok .count ∧ s.v = true) → r.toNat % 2 ^ 64 = 0)

/-- R208: a command that raises an error writes no state at all and answers, in its place in the response order, with its
error's code and no data. -/
def Obligations.ErrorsWriteNoState : Prop :=
  ∀ (s t : State) (w : CmdWord) (rest : List HostEvent) (r : RspWord), s.inputs = .command w :: rest →
    step s = .next t → t.rspPending = s.rspPending ++ [r] → r.extractLsb' 64 4 ≠ 0#4 →
    t = { s with inputs := rest, rspPending := s.rspPending ++ [r] } ∧
    ((r = 0x010000000000000000#72 ∧ ∃ p, decode w = .ok (.new p) ∧ (p < 4 ∨ 16 < p)) ∨
      (r = 0x020000000000000000#72 ∧ ∃ why, decode w = .error why) ∨
      (r = 0x030000000000000000#72 ∧ s.v = false ∧ (decode w = .ok .count ∨ ∃ h, decode w = .ok (.add h))))

/-- R59: over any run without a reset, every accepted command produces exactly one response, and responses are delivered in
the order of acceptance: what was delivered or waiting stays, in its order, before what is new; and the response of each
command is the one it computes in the state in which it is accepted. A reset cancels the responses not yet delivered. -/
def Obligations.OneResponsePerCommandInOrder : Prop :=
  (∀ (n : Nat) (s t : State), HostEvent.reset ∉ s.inputs.take n → runSteps n s = .next t →
    s.rspDelivered <+: t.rspDelivered ∧
    ∃ rs, t.rspDelivered ++ t.rspPending = s.rspDelivered ++ s.rspPending ++ rs ∧
      rs.length = (s.inputs.take n).countP isCommand ∧
      ∀ k w, k < n → s.inputs[k]? = some (.command w) →
        ∃ sk tk r, runSteps k s = .next sk ∧ step sk = .next tk ∧ tk.rspPending = sk.rspPending ++ [r] ∧
          rs[(s.inputs.take k).countP isCommand]? = some r) ∧
  ∀ (s : State) (rest : List HostEvent), s.inputs = .reset :: rest →
    ∃ t, step s = .next t ∧ t.rspPending = [] ∧ t.rspDelivered = s.rspDelivered

/-- R36: an offered response is held until it is delivered or a reset abandons it. The list of undelivered responses is the
model's own picture of the port: assumption log entry 3. -/
def Obligations.OfferedResponseIsHeld : Prop :=
  ∀ (s t : State) (r : RspWord), rspValid s = true → rspWord s = some r →
    s.inputs.head? ≠ some .takeResponse → s.inputs.head? ≠ some .reset → step s = .next t →
    rspValid t = true ∧ rspWord t = some r

/-- R250: a host that keeps taking receives every response that was waiting, in order. That a response is offered one step
after its command is the model's choice: assumption log entries 3 and 17. -/
def Obligations.WaitingResponsesAreDelivered : Prop :=
  ∀ (s : State) (rest : List HostEvent), s.inputs = List.replicate s.rspPending.length .takeResponse ++ rest →
    runSteps s.rspPending.length s =
      .next { s with inputs := rest, rspPending := [], rspDelivered := s.rspDelivered ++ s.rspPending }

/-! ### Lifetime, invariant, reset (10_state.md, 70_reset_and_hazards.md) -/

/-- R27, R31: within one estimator lifetime `PREC` is immutable and no register ever shrinks. -/
def Obligations.RegistersNeverShrinkInALifetime : Prop :=
  ∀ (n : Nat) (s t : State), s.v = true → (∀ e ∈ s.inputs.take n, endsLifetime Config.params e = false) → runSteps n s = .next t →
    t.v = true ∧ t.prec = s.prec ∧ ∀ i, (s.m.read i).toNat ≤ (t.m.read i).toNat

/-- R21, R22: what changes `V` and `PREC`, over every step: only reset and a `NEW` that succeeds. -/
def Obligations.OnlyNewAndResetChangeControl : Prop :=
  ∀ s t : State, step s = .next t →
    (t.v ≠ s.v ∨ t.prec ≠ s.prec) →
    (s.inputs.head? = some .reset ∧ t.v = false ∧ t.prec = 0#6) ∨
    ∃ w p, s.inputs.head? = some (.command w) ∧ decode w = .ok (.new p) ∧ 4 ≤ p ∧ p ≤ 16 ∧
      t.v = true ∧ (t.prec.toNat : Int) = p

/-- The invariant of Safety.lean (10_state.md R22, R25; 30_encoding.md R89) is kept by every step. -/
def Obligations.StepKeepsTheInvariant : Prop :=
  ∀ s t : State, Inv Config.params s → step s = .next t → Inv Config.params t

/-- The same for every admissible parameter set, command by command. -/
def Obligations.CommandsKeepTheInvariant : Prop :=
  ∀ (P : Params) (s : State) (p : Int) (h : Word64), P.Admissible → Inv P s →
    Inv P (newCommand P p s) ∧ Inv P (addCommand P h s) ∧ Inv P (countCommand P s)

/-- The invariant holds after reset. -/
def Obligations.ResetMeetsTheInvariant : Prop := Inv Config.params State.reset

/-- R25, R8: in a legal state every register is within its bound, and both shift amounts are in `[1, 63]`. -/
def Obligations.RegisterBoundAndShiftAmounts : Prop :=
  ∀ (P : Params) (s : State), P.Admissible → P.allZero = .stated → Inv P s → s.v = true →
    (∀ i, (s.m.read i).toNat ≤ 64 - s.prec.toNat + 1 ∧ (s.m.read i).toNat ≤ 64) ∧
    1 ≤ s.prec.toNat ∧ s.prec.toNat ≤ 63 ∧ 1 ≤ 64 - s.prec.toNat ∧ 64 - s.prec.toNat ≤ 63

/-- R40: `V` and `PREC` after reset. -/
def Obligations.ResetValues : Prop := State.reset.v = false ∧ State.reset.prec = 0#6

/-- R7: the parameters of this instance are admissible and have the spec's defaults. -/
def Obligations.DefaultParameters : Prop :=
  Config.params.Admissible ∧ Config.params.pMin = 4 ∧ Config.params.pMax = 16 ∧
  Config.params.alphaNum * 100000 = 79402 * Config.params.alphaDen

/-- R241, R242 (assumption log entries 5 and 7): reset clears `V` and `PREC`, abandons every
undelivered response, produces none, offers none, and does not write the array; the first command after it is executed against the reset state: only a `NEW` can succeed. -/
def Obligations.ResetAbandonsTheEstimator : Prop :=
  ∀ (s : State) (rest : List HostEvent), s.inputs = .reset :: rest →
    ∃ t, step s = .next t ∧ t.v = false ∧ t.prec = 0#6 ∧ t.m = s.m ∧ t.rspPending = [] ∧ rspValid t = false ∧
      t.rspDelivered = s.rspDelivered ∧ t.inputs = rest ∧
      (∀ h, exec (.add h) t = .next { t with rspPending := [0x030000000000000000#72] }) ∧
      exec .count t = .next { t with rspPending := [0x030000000000000000#72] }

/-- R41: the array's contents while no estimator exists are unobservable: two machines that differ only there go through any
number of steps with the same `V`, `PREC` and responses, and have the same array as soon as an estimator exists. -/
def Obligations.ArrayUnobservableWithoutEstimator : Prop :=
  ∀ (n : Nat) (s t : State), s.v = false → SameButArray s t →
    ∃ s' t' : State, runSteps n s = .next s' ∧ runSteps n t = .next t' ∧ SameButArray s' t' ∧ (s'.v = true → s'.m = t'.m)

/-! ### The assembler (30_encoding.md R97 to R99) -/

/-- R97: a line that assembles to a command gives one word, and that word is legal and decodes to the command. Which lines
parse is in part the model's choice: assumption log entry 15. -/
def Obligations.AssembledCommandsAreLegal : Prop :=
  ∀ (line : List Char) (i : Instr), parseLine line = some (.command i) →
    ∃ w, (AsmLine.command i).words = [w] ∧ decode w = .ok i

/-- R97: the listing of any word, legal or not, after the directive `.word` assembles to that word. That the space of the
listing may stand between the digits is the model's choice: assumption log entry 15. -/
def Obligations.ListingAssemblesToItsWord : Prop :=
  ∀ w : CmdWord, parseLine (['.', 'w', 'o', 'r', 'd', ' '] ++ listing w) = some (.word w)

/-- R98: `adde "<text>"` expands to `add Hash(b)`, where `b` are the bytes of the text. That a `;` inside the quotes belongs
to the text, that there are no escapes and that the bytes are UTF-8 is the model's choice: assumption log entry 15. -/
def Obligations.AddeIsAddOfTheHash : Prop :=
  ∀ text : List Char, '"' ∉ text →
    ∃ l, parseLine (['a', 'd', 'd', 'e', ' ', '"'] ++ text ++ ['"']) = some l ∧
      l.words = [encode (.add (Config.hash (textBytes text)))]

/-! ### Every admissible set of parameters (00_scope.md R7) -/

/-- R7: the block takes its parameters as an argument, and this hardware instance is that block at the default parameters,
command by command and step by step. -/
def Obligations.InstanceIsTheBlockAtItsParameters : Prop :=
  ∀ s : State, (∀ i, exec i s = execWith Config.params i s) ∧ step s = stepWith Config.params s ∧
    ∀ n, runSteps n s = runStepsWith Config.params n s

/-- R7: the three commands under every admissible set of parameters, in every state that is legal under it: `NEW` succeeds
exactly in `[P_MIN, P_MAX]`; with an estimator `ADD` takes the maximum (stated reading of the all-zero rank) and `COUNT`
answers the exact estimate (if `LinCount` has the property of R176); without one both raise `NoEstimator`. -/
def Obligations.CommandsUnderEveryParameterSet : Prop :=
  ∀ (P : Params) (s : State), P.Admissible → Inv P s →
    (∀ p : Int, (P.pMin : Int) ≤ p → p ≤ (P.pMax : Int) → ∃ t, execWith P (.new p) s = .next t ∧
      t.v = true ∧ (t.prec.toNat : Int) = p ∧ (∀ i, i < 2 ^ p.toNat → t.m.read i = 0#7) ∧
      t.rspPending = s.rspPending ++ [0x000000000000000000#72] ∧ t.inputs = s.inputs ∧ t.rspDelivered = s.rspDelivered) ∧
    (∀ p : Int, p < (P.pMin : Int) ∨ (P.pMax : Int) < p →
      execWith P (.new p) s = .next { s with rspPending := s.rspPending ++ [0x010000000000000000#72] }) ∧
    (P.allZero = .stated → s.v = true → ∀ h : Word64, ∃ t, execWith P (.add h) s = .next t ∧
      (∀ i, (t.m.read i).toNat =
        if i = Reference.index s.prec.toNat h then max (s.m.read i).toNat (Reference.rank s.prec.toNat h)
        else (s.m.read i).toNat) ∧
      t.v = s.v ∧ t.prec = s.prec ∧ t.inputs = s.inputs ∧ t.rspDelivered = s.rspDelivered ∧
      t.rspPending = s.rspPending ++ [0x000000000000000000#72]) ∧
    (P.LinCountExact → s.v = true →
      execWith P .count s = .next { s with rspPending := s.rspPending ++ [Reference.response P s] }) ∧
    (s.v = false → ∀ i : Instr, i = .count ∨ (∃ h, i = .add h) →
      execWith P i s = .next { s with rspPending := s.rspPending ++ [0x030000000000000000#72] })

/-- R7 with R22, R25 and R89: the invariant of Safety.lean is kept by every step under every admissible set of parameters. -/
def Obligations.StepKeepsTheInvariantUnderEveryParameterSet : Prop :=
  ∀ (P : Params), P.Admissible → Inv P State.reset ∧
    ∀ s : State, Inv P s → ∃ t, stepWith P s = .next t ∧ Inv P t

/-- R7 with R21, R22, R27 and R31: over any run under any admissible set of parameters in which no event ends the lifetime, `V` and
`PREC` stay and no register shrinks; and a step that changes `V` or `PREC` is a reset or a `NEW` in `[P_MIN, P_MAX]`. -/
def Obligations.LifetimeUnderEveryParameterSet : Prop :=
  ∀ (P : Params), P.Admissible →
    (∀ (n : Nat) (s t : State), s.v = true → (∀ e ∈ s.inputs.take n, endsLifetime P e = false) →
      runStepsWith P n s = .next t → t.v = true ∧ t.prec = s.prec ∧ ∀ i, (s.m.read i).toNat ≤ (t.m.read i).toNat) ∧
    ∀ s t : State, stepWith P s = .next t → (t.v ≠ s.v ∨ t.prec ≠ s.prec) →
      (s.inputs.head? = some .reset ∧ t.v = false ∧ t.prec = 0#6) ∨
      ∃ w p, s.inputs.head? = some (.command w) ∧ decode w = .ok (.new p) ∧ (P.pMin : Int) ≤ p ∧ p ≤ (P.pMax : Int) ∧
        t.v = true ∧ (t.prec.toNat : Int) = p
end

