-- ==== Sys2Proof/Laws/Decode.lean ====
section
/-! SUPPORT. Laws/Decode.lean: the fields of a command word as numbers, so that statements about words become arithmetic. -/

namespace Sys2Proof

/-- A command word as a number: the opcode times `2^64`, and the operand. -/
theorem toNat_commandWord (opcode : BitVec 8) (operand : Word64) :
    (commandWord opcode operand).toNat = opcode.toNat * 2 ^ 64 + operand.toNat := by
  have h : (commandWord opcode operand).toNat = opcode.toNat <<< 64 ||| operand.toNat :=
    BitVec.toNat_append opcode operand
  rw [h, ← Nat.shiftLeft_add_eq_or_of_lt operand.isLt, Nat.shiftLeft_eq]

theorem toNat_opcodeField (w : CmdWord) : (opcodeField w).toNat = w.toNat / 2 ^ 64 := by
  have h := w.isLt
  simp only [opcodeField, BitVec.extractLsb'_toNat, Nat.shiftRight_eq_div_pow]
  omega

theorem toNat_operandField (w : CmdWord) : (operandField w).toNat = w.toNat % 2 ^ 64 := by
  simp only [operandField, BitVec.extractLsb'_toNat, Nat.shiftRight_eq_div_pow]
  omega

@[simp] theorem opcodeField_commandWord (opcode : BitVec 8) (operand : Word64) :
    opcodeField (commandWord opcode operand) = opcode := by
  apply BitVec.eq_of_toNat_eq
  have := operand.isLt
  rw [toNat_opcodeField, toNat_commandWord]
  omega

@[simp] theorem operandField_commandWord (opcode : BitVec 8) (operand : Word64) :
    operandField (commandWord opcode operand) = operand := by
  apply BitVec.eq_of_toNat_eq
  have := operand.isLt
  rw [toNat_operandField, toNat_commandWord]
  omega

/-- A word is put together again from its two fields. -/
theorem commandWord_fields (w : CmdWord) : commandWord (opcodeField w) (operandField w) = w := by
  apply BitVec.eq_of_toNat_eq
  rw [toNat_commandWord, toNat_opcodeField, toNat_operandField]
  omega

/-- Everything `decode` can answer (30_encoding.md R95). -/
theorem decode_cases (w : CmdWord) :
    (opcodeField w = opcodeNew ∧ decode w = .ok (.new (sint64 (operandField w)))) ∨
    (opcodeField w = opcodeAdd ∧ decode w = .ok (.add (operandField w))) ∨
    (opcodeField w = opcodeCount ∧ operandField w = 0#64 ∧ decode w = .ok .count) ∨
    (opcodeField w = opcodeCount ∧ operandField w ≠ 0#64 ∧
      decode w = .error (.countOperandNotZero (operandField w))) ∨
    (opcodeField w ≠ opcodeNew ∧ opcodeField w ≠ opcodeAdd ∧ opcodeField w ≠ opcodeCount ∧
      decode w = .error (.reservedOpcode (opcodeField w))) := by
  unfold decode
  by_cases h1 : opcodeField w = opcodeNew
  · exact .inl ⟨h1, by simp [h1]⟩
  by_cases h2 : opcodeField w = opcodeAdd
  · exact .inr (.inl ⟨h2, by rw [if_neg h1, if_pos h2]⟩)
  by_cases h3 : opcodeField w = opcodeCount
  · by_cases h4 : operandField w = 0#64
    · exact .inr (.inr (.inl ⟨h3, h4, by rw [if_neg h1, if_neg h2, if_pos h3, if_pos h4]⟩))
    · exact .inr (.inr (.inr (.inl ⟨h3, h4, by rw [if_neg h1, if_neg h2, if_pos h3, if_neg h4]⟩)))
  · exact .inr (.inr (.inr (.inr ⟨h1, h2, h3, by rw [if_neg h1, if_neg h2, if_neg h3]⟩)))

end Sys2Proof
end

