-- ==== Sys2Proof/Laws/Flags.lean ====
section
/-! SUPPORT. Laws/Flags.lean: a response word gives back its two fields, and every response the block makes, field by
field. -/

namespace Sys2Proof.Machine

/-- A response as a number: the status byte times `2^64`, and the data. -/
theorem toNat_responseWord (status : BitVec 8) (data : Word64) :
    (responseWord status data).toNat = status.toNat * 2 ^ 64 + data.toNat := by
  have h : (responseWord status data).toNat = status.toNat <<< 64 ||| data.toNat := BitVec.toNat_append status data
  rw [h, ← Nat.shiftLeft_add_eq_or_of_lt data.isLt, Nat.shiftLeft_eq]

@[simp] theorem responseStatus_responseWord (status : BitVec 8) (data : Word64) :
    responseStatus (responseWord status data) = status := by
  apply BitVec.eq_of_toNat_eq
  have h := data.isLt
  have h' := status.isLt
  simp only [responseStatus, BitVec.extractLsb'_toNat, toNat_responseWord, Nat.shiftRight_eq_div_pow]
  omega

@[simp] theorem responseData_responseWord (status : BitVec 8) (data : Word64) :
    responseData (responseWord status data) = data := by
  apply BitVec.eq_of_toNat_eq
  have h := data.isLt
  simp only [responseData, BitVec.extractLsb'_toNat, toNat_responseWord, Nat.shiftRight_eq_div_pow]
  omega

/-- The status of a `COUNT`'s response (42_count.md R171, R172). -/
theorem responseStatus_countResponse (n : Nat) :
    responseStatus (countResponse n) = if 2 ^ 64 - 1 < n then 0x80#8 else 0x00#8 := by
  unfold countResponse
  split <;> simp [statusByte, okCode]

/-- The data of a `COUNT`'s response: the estimate, saturated (42_count.md R171, R172). -/
theorem responseData_countResponse (n : Nat) : (responseData (countResponse n)).toNat = min n (2 ^ 64 - 1) := by
  unfold countResponse
  split
  · simp; omega
  · rename_i h
    simp; omega

end Sys2Proof.Machine
end

