-- ==== Sys2Proof/Laws/Logarithm.lean ====
section
/-! SUPPORT. Laws/Logarithm.lean: the fixed-point logarithm of `COUNT` lies below the real logarithm by a known, tiny error
(assumption log entry 11). -/

namespace Sys2Proof.Machine

section Ratio
variable {a b : Nat}

/-- The series of `ln(a / b)` in `z = (a - b) / (a + b)`, from Mathlib. -/
theorem log_ratio_hasSum (hb : 0 < b) (hab : b ≤ a) :
    HasSum (fun k : ℕ => 2 * (1 / (2 * (k : ℝ) + 1)) * (((a : ℝ) - b) / (a + b)) ^ (2 * k + 1)) (Real.log ((a : ℝ) / b)) := by
  have hbR : (0 : ℝ) < b := by exact_mod_cast hb
  have habR : (b : ℝ) ≤ a := by exact_mod_cast hab
  have hs : (0 : ℝ) < a + b := by linarith
  have hz0 : 0 ≤ ((a : ℝ) - b) / (a + b) := div_nonneg (by linarith) hs.le
  have hz1 : ((a : ℝ) - b) / (a + b) < 1 := by rw [div_lt_one hs]; linarith
  have h := Real.hasSum_log_sub_log_of_abs_lt_one (x := ((a : ℝ) - b) / (a + b)) (by rw [abs_of_nonneg hz0]; exact hz1)
  convert h using 1
  have h1 : 1 + ((a : ℝ) - b) / (a + b) = 2 * a / (a + b) := by field_simp; ring
  have h2 : 1 - ((a : ℝ) - b) / (a + b) = 2 * b / (a + b) := by field_simp; ring
  rw [h1, h2, ← Real.log_div (by have : (0 : ℝ) < a := by linarith
                                 positivity) (by positivity)]
  congr 1
  field_simp

/-- One term of the fixed-point sum is the floor of the scaled term of the series. -/
theorem lnTerm_bounds (hb : 0 < b) (hab : b ≤ a) (k : Nat) :
    ((2 ^ (lnBits + 1) * (a - b) ^ (2 * k + 1) / ((2 * k + 1) * (a + b) ^ (2 * k + 1)) : ℕ) : ℝ) ≤
        2 ^ lnBits * (2 * (1 / (2 * (k : ℝ) + 1)) * (((a : ℝ) - b) / (a + b)) ^ (2 * k + 1)) ∧
    2 ^ lnBits * (2 * (1 / (2 * (k : ℝ) + 1)) * (((a : ℝ) - b) / (a + b)) ^ (2 * k + 1)) <
        ((2 ^ (lnBits + 1) * (a - b) ^ (2 * k + 1) / ((2 * k + 1) * (a + b) ^ (2 * k + 1)) : ℕ) : ℝ) + 1 := by
  have hs : (0 : ℝ) < (a : ℝ) + b := by have : (0 : ℝ) < b := by exact_mod_cast hb
                                        positivity
  have heq : 2 ^ lnBits * (2 * (1 / (2 * (k : ℝ) + 1)) * (((a : ℝ) - b) / (a + b)) ^ (2 * k + 1)) =
      ((2 ^ (lnBits + 1) * (a - b) ^ (2 * k + 1) : ℕ) : ℝ) / (((2 * k + 1) * (a + b) ^ (2 * k + 1) : ℕ) : ℝ) := by
    push_cast [Nat.cast_sub hab]
    rw [div_pow]
    field_simp
    ring
  rw [heq, ← Nat.floor_div_eq_div (K := ℝ)]
  exact ⟨Nat.floor_le (by positivity), Nat.lt_floor_add_one _⟩

/-- The fixed-point logarithm of a ratio is a lower bound. -/
theorem lnRatio_le (hb : 0 < b) (hab : b ≤ a) : (lnRatio a b : ℝ) ≤ 2 ^ lnBits * Real.log ((a : ℝ) / b) := by
  have hsum := log_ratio_hasSum hb hab
  have hz0 : 0 ≤ ((a : ℝ) - b) / (a + b) := by
    have : (b : ℝ) ≤ a := by exact_mod_cast hab
    exact div_nonneg (by linarith) (by positivity)
  calc (lnRatio a b : ℝ)
      = ∑ k ∈ Finset.range lnTerms,
          ((2 ^ (lnBits + 1) * (a - b) ^ (2 * k + 1) / ((2 * k + 1) * (a + b) ^ (2 * k + 1)) : ℕ) : ℝ) := by
        rw [lnRatio, ← Nat.cast_sum]; rfl
    _ ≤ ∑ k ∈ Finset.range lnTerms,
          2 ^ lnBits * (2 * (1 / (2 * (k : ℝ) + 1)) * (((a : ℝ) - b) / (a + b)) ^ (2 * k + 1)) :=
        Finset.sum_le_sum fun k _ => (lnTerm_bounds hb hab k).1
    _ = 2 ^ lnBits * ∑ k ∈ Finset.range lnTerms,
          (2 * (1 / (2 * (k : ℝ) + 1)) * (((a : ℝ) - b) / (a + b)) ^ (2 * k + 1)) := by rw [Finset.mul_sum]
    _ ≤ 2 ^ lnBits * Real.log ((a : ℝ) / b) := by
        refine mul_le_mul_of_nonneg_left ?_ (by positivity)
        exact sum_le_hasSum _ (fun k _ => by positivity) hsum

/-- What the series leaves out after `lnTerms` terms is below one unit, for a ratio of at most 2. -/
theorem lnTail_le (hb : 0 < b) (hab : b ≤ a) (ha2 : a ≤ 2 * b) :
    2 ^ lnBits * Real.log ((a : ℝ) / b) ≤
      2 ^ lnBits * (∑ k ∈ Finset.range lnTerms,
        (2 * (1 / (2 * (k : ℝ) + 1)) * (((a : ℝ) - b) / (a + b)) ^ (2 * k + 1))) + 1 := by
  have hsum := log_ratio_hasSum hb hab
  set z : ℝ := ((a : ℝ) - b) / (a + b) with hz
  have hbR : (0 : ℝ) < b := by exact_mod_cast hb
  have habR : (b : ℝ) ≤ a := by exact_mod_cast hab
  have ha2R : (a : ℝ) ≤ 2 * b := by exact_mod_cast ha2
  have hz0 : 0 ≤ z := div_nonneg (by linarith) (by positivity)
  have hz3 : z ≤ 1 / 3 := by rw [hz, div_le_iff₀ (by positivity)]; linarith
  have htail : Real.log ((a : ℝ) / b) - ∑ k ∈ Finset.range lnTerms, (2 * (1 / (2 * (k : ℝ) + 1)) * z ^ (2 * k + 1)) ≤
      2 * (1 / 3) ^ (2 * lnTerms + 1) * (1 - 1 / 9)⁻¹ := by
    have h1 := (hasSum_nat_add_iff' lnTerms).mpr hsum
    have h2 : HasSum (fun k : ℕ => 2 * (1 / 3 : ℝ) ^ (2 * lnTerms + 1) * (1 / 9 : ℝ) ^ k)
        (2 * (1 / 3) ^ (2 * lnTerms + 1) * (1 - 1 / 9)⁻¹) :=
      (hasSum_geometric_of_lt_one (by norm_num) (by norm_num)).mul_left _
    refine hasSum_le (fun k => ?_) h1 h2
    have hk : (2 : ℝ) * (1 / 3) ^ (2 * lnTerms + 1) * (1 / 9) ^ k = 2 * (1 * (1 / 3) ^ (2 * (k + lnTerms) + 1)) := by
      rw [show (1 / 9 : ℝ) = (1 / 3) ^ 2 by norm_num, ← pow_mul]
      ring
    rw [hk, mul_assoc]
    refine mul_le_mul_of_nonneg_left ?_ (by norm_num)
    refine mul_le_mul ?_ (pow_le_pow_left₀ hz0 hz3 _) (by positivity) (by norm_num)
    rw [div_le_one (by positivity)]
    have : (0 : ℝ) ≤ ((k + lnTerms : ℕ) : ℝ) := Nat.cast_nonneg _
    linarith
  have hsmall : (2 : ℝ) ^ lnBits * (2 * (1 / 3) ^ (2 * lnTerms + 1) * (1 - 1 / 9)⁻¹) ≤ 1 := by
    norm_num [lnBits, lnTerms]
  have := mul_le_mul_of_nonneg_left htail (show (0 : ℝ) ≤ 2 ^ lnBits by positivity)
  linarith

/-- The fixed-point logarithm of a ratio of at most 2 is within `lnTerms + 1` units. -/
theorem lnRatio_error (hb : 0 < b) (hab : b ≤ a) (ha2 : a ≤ 2 * b) :
    2 ^ lnBits * Real.log ((a : ℝ) / b) ≤ lnRatio a b + (lnTerms + 1) := by
  have h := lnTail_le hb hab ha2
  have hterms : 2 ^ lnBits * (∑ k ∈ Finset.range lnTerms,
      (2 * (1 / (2 * (k : ℝ) + 1)) * (((a : ℝ) - b) / (a + b)) ^ (2 * k + 1))) ≤ (lnRatio a b : ℝ) + lnTerms := by
    calc _ = ∑ k ∈ Finset.range lnTerms,
          2 ^ lnBits * (2 * (1 / (2 * (k : ℝ) + 1)) * (((a : ℝ) - b) / (a + b)) ^ (2 * k + 1)) := by rw [Finset.mul_sum]
      _ ≤ ∑ k ∈ Finset.range lnTerms,
          (((2 ^ (lnBits + 1) * (a - b) ^ (2 * k + 1) / ((2 * k + 1) * (a + b) ^ (2 * k + 1)) : ℕ) : ℝ) + 1) :=
        Finset.sum_le_sum fun k _ => (lnTerm_bounds hb hab k).2.le
      _ = (lnRatio a b : ℝ) + lnTerms := by
        rw [Finset.sum_add_distrib, lnRatio, ← Nat.cast_sum]
        simp only [Finset.sum_const, Finset.card_range, nsmul_eq_mul, mul_one]
        rfl
  linarith

end Ratio

/-- The halvings bring the ratio into `[1, 2]`. -/
theorem halvings_bounds {m c : Nat} (hc : 0 < c) (hcm : c ≤ m) :
    c * 2 ^ Nat.log2 (m / c) ≤ m ∧ m ≤ 2 * (c * 2 ^ Nat.log2 (m / c)) := by
  have hq : m / c ≠ 0 := Nat.ne_of_gt (Nat.div_pos hcm hc)
  constructor
  · calc c * 2 ^ Nat.log2 (m / c) ≤ c * (m / c) := Nat.mul_le_mul_left _ (Nat.log2_self_le hq)
      _ ≤ m := Nat.mul_div_le m c
  · have hlt : m / c < 2 ^ (Nat.log2 (m / c) + 1) := Nat.lt_log2_self
    rw [Nat.div_lt_iff_lt_mul hc, pow_succ] at hlt
    nlinarith

/-- `ln(m / c)` is that many `ln 2` and the logarithm of the remaining ratio. -/
theorem log_halvings {m c j : Nat} (hc : 0 < c) (hm : 0 < m) :
    Real.log ((m : ℝ) / c) = j * Real.log ((2 : ℕ) / (1 : ℕ) : ℝ) + Real.log ((m : ℝ) / ((c * 2 ^ j : ℕ) : ℝ)) := by
  have hcR : (c : ℝ) ≠ 0 := by positivity
  have hmR : (m : ℝ) ≠ 0 := by positivity
  push_cast
  rw [Real.log_div hmR hcR, Real.log_div hmR (by positivity), Real.log_mul hcR (by positivity), Real.log_pow, div_one]
  ring

/-- The fixed-point logarithm is a lower bound. -/
theorem lnScaled_le {m c : Nat} (hc : 0 < c) (hcm : c ≤ m) :
    (lnScaled m c : ℝ) ≤ 2 ^ lnBits * Real.log ((m : ℝ) / c) := by
  have hj := halvings_bounds hc hcm
  rw [log_halvings (j := Nat.log2 (m / c)) hc (by omega), lnScaled]
  push_cast
  have h1 := lnRatio_le (a := 2) (b := 1) (by norm_num) (by norm_num)
  have h2 := lnRatio_le (a := m) (b := c * 2 ^ Nat.log2 (m / c)) (by positivity) hj.1
  push_cast at h1 h2
  have h3 := mul_le_mul_of_nonneg_left h1 (Nat.cast_nonneg (α := ℝ) (Nat.log2 (m / c)))
  linarith

/-- The fixed-point logarithm is within `lnTerms + 1` units for every halving and one more. -/
theorem lnScaled_error {m c : Nat} (hc : 0 < c) (hcm : c ≤ m) :
    2 ^ lnBits * Real.log ((m : ℝ) / c) ≤ lnScaled m c + (Nat.log2 (m / c) + 1) * (lnTerms + 1) := by
  have hj := halvings_bounds hc hcm
  rw [log_halvings (j := Nat.log2 (m / c)) hc (by omega), lnScaled]
  push_cast
  have h1 := lnRatio_error (a := 2) (b := 1) (by norm_num) (by norm_num) (by norm_num)
  have h2 := lnRatio_error (a := m) (b := c * 2 ^ Nat.log2 (m / c)) (by positivity) hj.1 hj.2
  push_cast at h1 h2
  have h3 := mul_le_mul_of_nonneg_left h1 (Nat.cast_nonneg (α := ℝ) (Nat.log2 (m / c)))
  linarith

end Sys2Proof.Machine
end

