-- ==== Sys2Proof/Laws/Memory.lean ====
section
/-! SUPPORT. Laws/Memory.lean: the register array: read after write, the canonical form, and that the sums of `COUNT` taken
over the listed registers are the sums over all registers. -/

namespace Sys2Proof.Machine.Memory

/-- The array of `State.reset` and of a fresh estimator is in canonical form. -/
@[simp] theorem wf_cleared : wf cleared := by simp [wf, cleared]

@[simp] theorem read_cleared (i : Nat) : read cleared i = 0#7 := rfl

/-- The tail of a canonical array is canonical. -/
theorem wf_tail {e : Nat × Reg} {m : Memory} (h : wf (e :: m)) : wf m :=
  ⟨(List.pairwise_cons.mp h.1).2, fun x hx => h.2 x (List.mem_cons_of_mem e hx)⟩

/-- An index that is not listed reads 0. -/
theorem read_eq_zero_of_not_listed {m : Memory} {i : Nat} (h : ∀ e ∈ m, e.1 ≠ i) : read m i = 0#7 := by
  induction m with
  | nil => rfl
  | cons e m ih =>
    obtain ⟨j, x⟩ := e
    have hj : i ≠ j := fun hij => h (j, x) (by simp) hij.symm
    simp only [read, if_neg hj]
    exact ih fun e he => h e (List.mem_cons_of_mem _ he)

/-- A register that does not read 0 is listed with its value. -/
theorem mem_of_read_ne_zero {m : Memory} {i : Nat} (h : read m i ≠ 0#7) : (i, read m i) ∈ m := by
  induction m with
  | nil => exact absurd rfl h
  | cons e m ih =>
    obtain ⟨j, x⟩ := e
    by_cases hj : i = j
    · simp [read, hj]
    · simp only [read, if_neg hj] at h ⊢
      exact List.mem_cons_of_mem _ (ih h)

/-- A listed register reads as listed. -/
theorem read_of_mem {m : Memory} (hm : wf m) {e : Nat × Reg} (he : e ∈ m) : read m e.1 = e.2 := by
  induction m with
  | nil => simp at he
  | cons d m ih =>
    obtain ⟨j, x⟩ := d
    rcases List.mem_cons.mp he with rfl | he
    · simp [read]
    · have hlt : j < e.1 := (List.pairwise_cons.mp hm.1).1 e he
      simp only [read, if_neg (Nat.ne_of_gt hlt)]
      exact ih (wf_tail hm) he

/-- A bound on every listed value bounds every register. -/
theorem read_le {m : Memory} {b : Nat} (h : ∀ e ∈ m, e.2.toNat ≤ b) (i : Nat) : (read m i).toNat ≤ b := by
  by_cases h0 : read m i = 0#7
  · simp [h0]
  · exact h _ (mem_of_read_ne_zero h0)

/-- Read after write, for a value that is not 0. -/
theorem read_write_of_ne_zero (m : Memory) (i j : Nat) {x : Reg} (hx : x ≠ 0#7) :
    read (write m i x) j = if j = i then x else read m j := by
  induction m with
  | nil => simp [write, hx, read]
  | cons e m ih =>
    obtain ⟨k, y⟩ := e
    simp only [write, hx, if_false]
    by_cases h1 : i < k
    · simp [h1, read]
    · by_cases h2 : i = k
      · subst h2; simp only [lt_irrefl, if_false, if_true, read]
        by_cases h3 : j = i <;> simp [h3]
      · simp only [h1, h2, if_false, read, ih]
        by_cases h3 : j = k
        · simp [h3, Ne.symm h2]
        · simp [h3]

/-- Read after write. -/
theorem read_write {m : Memory} (hm : wf m) (i j : Nat) (x : Reg) :
    read (write m i x) j = if j = i then x else read m j := by
  by_cases hx : x = 0#7
  · subst hx
    induction m with
    | nil => simp [write, read]
    | cons e m ih =>
      obtain ⟨k, y⟩ := e
      have hk : ∀ d ∈ m, k < d.1 := (List.pairwise_cons.mp hm.1).1
      simp only [write, if_true]
      by_cases h1 : i < k
      · simp only [h1, if_true]
        by_cases h3 : j = i
        · subst h3
          rw [if_pos rfl]
          refine read_eq_zero_of_not_listed fun d hd => ?_
          rcases List.mem_cons.mp hd with rfl | hd
          · exact Nat.ne_of_gt h1
          · exact Nat.ne_of_gt (Nat.lt_trans h1 (hk d hd))
        · simp [h3]
      · by_cases h2 : i = k
        · subst h2
          simp only [lt_irrefl, if_false, if_true, read]
          by_cases h3 : j = i
          · subst h3
            rw [if_pos rfl]
            exact read_eq_zero_of_not_listed fun d hd => Nat.ne_of_gt (hk d hd)
          · simp [h3]
        · simp only [h1, h2, if_false, read, ih (wf_tail hm)]
          by_cases h3 : j = k
          · simp [h3, Ne.symm h2]
          · simp [h3]
  · exact read_write_of_ne_zero m i j hx

/-- What a write can list: the written register, and what was listed before. -/
theorem mem_write {m : Memory} {i : Nat} {x : Reg} {e : Nat × Reg} (h : e ∈ write m i x) :
    (e = (i, x) ∧ x ≠ 0#7) ∨ e ∈ m := by
  induction m with
  | nil => by_cases hx : x = 0#7 <;> simp_all [write]
  | cons d m ih =>
    obtain ⟨k, y⟩ := d
    simp only [write] at h
    split at h
    · split at h
      · exact .inr h
      · rcases List.mem_cons.mp h with rfl | h
        · exact .inl ⟨rfl, by assumption⟩
        · exact .inr h
    · split at h
      · split at h
        · exact .inr (List.mem_cons_of_mem _ h)
        · rcases List.mem_cons.mp h with rfl | h
          · exact .inl ⟨rfl, by assumption⟩
          · exact .inr (List.mem_cons_of_mem _ h)
      · rcases List.mem_cons.mp h with rfl | h
        · exact .inr (by simp)
        · exact (ih h).imp_right (List.mem_cons_of_mem _)

/-- A write keeps the canonical form. -/
theorem wf_write {m : Memory} (hm : wf m) (i : Nat) (x : Reg) : wf (write m i x) := by
  refine ⟨?_, fun e he => ?_⟩
  · induction m with
    | nil => simp only [write]; split <;> simp
    | cons d m ih =>
      obtain ⟨k, y⟩ := d
      have hk : ∀ d ∈ m, k < d.1 := (List.pairwise_cons.mp hm.1).1
      have hm' := wf_tail hm
      simp only [write]
      split
      · rename_i hik
        split
        · exact hm.1
        · refine List.pairwise_cons.mpr ⟨fun d hd => ?_, hm.1⟩
          rcases List.mem_cons.mp hd with rfl | hd
          · exact hik
          · exact Nat.lt_trans hik (hk d hd)
      · split
        · rename_i hik
          subst hik
          split
          · exact hm'.1
          · exact List.pairwise_cons.mpr ⟨hk, hm'.1⟩
        · refine List.pairwise_cons.mpr ⟨fun d hd => ?_, ih hm'⟩
          rcases mem_write hd with ⟨rfl, -⟩ | hd
          · show k < i; omega
          · exact hk d hd
  · rcases mem_write he with ⟨rfl, hx⟩ | he
    · exact hx
    · exact hm.2 e he

/-- Two canonical arrays that read the same everywhere are the same data. -/
theorem eq_of_read_eq {a b : Memory} (ha : wf a) (hb : wf b) (h : ∀ i, read a i = read b i) : a = b := by
  induction a generalizing b with
  | nil =>
    cases b with
    | nil => rfl
    | cons e b => exact absurd ((read_of_mem hb (by simp)).symm.trans (h e.1).symm) (hb.2 e (by simp))
  | cons d a ih =>
    obtain ⟨j, x⟩ := d
    cases b with
    | nil => exact absurd ((read_of_mem ha (by simp)).symm.trans (h j)) (ha.2 (j, x) (by simp))
    | cons e b =>
      obtain ⟨k, y⟩ := e
      have haj : ∀ d ∈ a, j < d.1 := (List.pairwise_cons.mp ha.1).1
      have hbk : ∀ d ∈ b, k < d.1 := (List.pairwise_cons.mp hb.1).1
      have hj : read ((j, x) :: a) j = x := by simp [read]
      have hk : read ((k, y) :: b) k = y := by simp [read]
      have hjk : j = k := by
        rcases Nat.lt_trichotomy j k with hlt | heq | hgt
        · have : read ((k, y) :: b) j = 0#7 := read_eq_zero_of_not_listed fun d hd => by
            rcases List.mem_cons.mp hd with rfl | hd
            · exact Nat.ne_of_gt hlt
            · exact Nat.ne_of_gt (Nat.lt_trans hlt (hbk d hd))
          exact absurd (hj.symm.trans ((h j).trans this)) (ha.2 (j, x) (by simp))
        · exact heq
        · have : read ((j, x) :: a) k = 0#7 := read_eq_zero_of_not_listed fun d hd => by
            rcases List.mem_cons.mp hd with rfl | hd
            · exact Nat.ne_of_gt hgt
            · exact Nat.ne_of_gt (Nat.lt_trans hgt (haj d hd))
          exact absurd (hk.symm.trans ((h k).symm.trans this)) (hb.2 (k, y) (by simp))
      subst hjk
      have hxy : x = y := hj.symm.trans ((h j).trans hk)
      subst hxy
      congr 1
      refine ih (wf_tail ha) (wf_tail hb) fun i => ?_
      by_cases hij : i = j
      · subst hij
        rw [read_eq_zero_of_not_listed fun d hd => Nat.ne_of_gt (haj d hd),
          read_eq_zero_of_not_listed fun d hd => Nat.ne_of_gt (hbk d hd)]
      · simpa [read, hij] using h i

/-- A sum over the registers of a canonical array, taken over the listed ones and the unlisted ones apart. -/
theorem sum_read {m : Memory} (hm : wf m) (n : Nat) (f : Reg → Nat) :
    (∑ i ∈ Finset.range n, f (read m i)) =
      ((m.within n).map (fun e => f e.2)).sum + (n - (m.within n).length) * f 0#7 := by
  have hw : wf (m.within n) :=
    ⟨hm.1.sublist List.filter_sublist, fun e he => hm.2 e (List.mem_filter.mp he).1⟩
  have hnd : ((m.within n).map Prod.fst).Nodup := by
    rw [List.Nodup, List.pairwise_map]
    exact hw.1.imp fun h => Nat.ne_of_lt h
  set L : Finset Nat := ((m.within n).map Prod.fst).toFinset with hL
  have hsub : L ⊆ Finset.range n := by
    intro i hi
    simp only [hL, List.mem_toFinset, List.mem_map] at hi
    obtain ⟨e, he, rfl⟩ := hi
    simpa [Memory.within] using (List.mem_filter.mp he).2
  have hcard : L.card = (m.within n).length := by
    rw [hL, List.toFinset_card_of_nodup hnd, List.length_map]
  rw [← Finset.sum_sdiff hsub, Nat.add_comm]
  congr 1
  · rw [hL, List.sum_toFinset _ hnd, List.map_map]
    congr 1
    refine List.map_congr_left fun e he => ?_
    simp only [Function.comp]
    rw [read_of_mem hm (List.mem_filter.mp he).1]
  · rw [Finset.sum_congr rfl (g := fun _ => f 0#7), Finset.sum_const, Finset.card_sdiff_of_subset hsub, Finset.card_range, hcard,
      smul_eq_mul]
    intro i hi
    obtain ⟨hin, hil⟩ := Finset.mem_sdiff.mp hi
    congr 1
    refine read_eq_zero_of_not_listed fun e he hei => hil ?_
    simp only [hL, List.mem_toFinset, List.mem_map]
    exact ⟨e, List.mem_filter.mpr ⟨he, by simpa [hei] using hin⟩, hei⟩

end Sys2Proof.Machine.Memory

namespace Sys2Proof.Machine

/-- `scaledSum` is the sum of 42_count.md R162 over every register, times `2^127`. -/
theorem scaledSum_eq {m : Memory} (hm : m.wf) (n : Nat) :
    scaledSum n m = ∑ i ∈ Finset.range n, 2 ^ (127 - (m.read i).toNat) := by
  rw [Memory.sum_read hm n (fun x => 2 ^ (127 - x.toNat))]
  simp [scaledSum]

/-- `zeroCount` counts the zero registers of 42_count.md R164. -/
theorem zeroCount_eq {m : Memory} (hm : m.wf) (n : Nat) :
    zeroCount n m = ((Finset.range n).filter (fun i => m.read i = 0#7)).card := by
  rw [Finset.card_filter, Memory.sum_read hm n (fun x => if x = 0#7 then 1 else 0)]
  have h0 : ((m.within n).countP (fun e => e.2 == 0#7)) = 0 :=
    List.countP_eq_zero.mpr fun e he => by simpa using hm.2 e (List.mem_filter.mp he).1
  have h1 : ((m.within n).map (fun e => if e.2 = 0#7 then 1 else 0)).sum = 0 := by
    refine List.sum_eq_zero fun x hx => ?_
    obtain ⟨e, he, rfl⟩ := List.mem_map.mp hx
    simp [hm.2 e (List.mem_filter.mp he).1]
  simp [zeroCount, h0, h1]

/-- The register update keeps the canonical form. -/
theorem updateRegister_wf {m : Memory} (hm : m.wf) (idx rank : Nat) : (updateRegister idx rank m).wf := by
  unfold updateRegister
  split
  · exact Memory.wf_write hm _ _
  · exact hm

/-- What the register update does to every register, for a rank that fits a register. -/
theorem updateRegister_read (m : Memory) (idx j : Nat) {rank : Nat} (h : rank < 128) :
    ((updateRegister idx rank m).read j).toNat =
      if j = idx then max (m.read idx).toNat rank else (m.read j).toNat := by
  unfold updateRegister
  split
  · rename_i hlt
    have hne : BitVec.ofNat 7 rank ≠ 0#7 := by
      intro h0
      have := congrArg BitVec.toNat h0
      simp [Nat.mod_eq_of_lt h] at this
      omega
    rw [Memory.read_write_of_ne_zero m idx j hne]
    by_cases hj : j = idx
    · simp [hj, Nat.mod_eq_of_lt h]; omega
    · simp [hj]
  · by_cases hj : j = idx
    · subst hj; simp; omega
    · simp [hj]

end Sys2Proof.Machine
end

