-- ==== Sys2Proof/Laws/Operands.lean ====
section
/-! SUPPORT. Laws/Operands.lean: the ranges of what hash_rank_extractor gives (20_memory.md R51, 41_add.md R134). -/

namespace Sys2Proof.Machine

/-- What the check of `NEW` says (40_construction.md R111). -/
theorem acceptsPrecision_iff (P : Params) (p : Int) :
    acceptsPrecision P p = true ↔ (P.pMin : Int) ≤ p ∧ p ≤ (P.pMax : Int) := by simp [acceptsPrecision]

/-- The same for the default parameters (00_scope.md section 4). -/
theorem acceptsPrecision_default (p : Int) : acceptsPrecision Config.params p = true ↔ 4 ≤ p ∧ p ≤ 16 :=
  acceptsPrecision_iff Config.params p

/-- Every index of a hash names a register of the estimator (20_memory.md R51). -/
theorem hashIndex_lt {p : Nat} (hp : p ≤ 64) (h : Word64) : hashIndex p h < 2 ^ p := by
  have hlt := h.isLt
  simp only [hashIndex, shr64, BitVec.toNat_ushiftRight, Nat.shiftRight_eq_div_pow]
  rw [Nat.div_lt_iff_lt_mul (by positivity), ← pow_add]
  rwa [Nat.add_sub_cancel' hp]

theorem rankAllZero_pos (P : Params) (p : Nat) : 0 < rankAllZero P p := by
  unfold rankAllZero; split <;> omega

theorem rankAllZero_le (P : Params) (p : Nat) : rankAllZero P p ≤ 65 := by
  unfold rankAllZero; split <;> omega

/-- A rank is never 0 (41_add.md R134): an `ADD` never stores 0. -/
theorem hashRank_pos (P : Params) (p : Nat) (h : Word64) : 0 < hashRank P p h := by
  have := rankAllZero_pos P p
  unfold hashRank; omega

theorem hashRank_le (P : Params) (p : Nat) (h : Word64) : hashRank P p h ≤ rankAllZero P p := Nat.min_le_right _ _

/-- A rank fits the 7-bit register (00_scope.md R9). -/
theorem hashRank_lt (P : Params) (p : Nat) (h : Word64) : hashRank P p h < 128 := by
  have := hashRank_le P p h
  have := rankAllZero_le P p
  omega

end Sys2Proof.Machine
end

