-- ==== Sys2Proof/Laws/PerInstr.lean ====
section
/-! SUPPORT. Laws/PerInstr.lean: statements over all instructions, one lemma per constructor. -/

namespace Sys2Proof.Laws.OpcodeByte

/-- The opcode an instruction is encoded with (30_encoding.md R86). -/
def expected : Instr → BitVec 8
  | .new _ => 0x01#8
  | .add _ => 0x02#8
  | .count => 0x03#8

/-- An instruction's word carries its opcode in bits 71:64 (30_encoding.md R80, R86). -/
def Statement (i : Instr) : Prop := opcodeField (encode i) = expected i

theorem new (p : Int) : Statement (.new p) := opcodeField_commandWord _ _
theorem add (h : Word64) : Statement (.add h) := opcodeField_commandWord _ _
theorem count : Statement .count := opcodeField_commandWord _ _

end Sys2Proof.Laws.OpcodeByte
end

