-- ==== Sys2Proof/Laws/State.lean ====
section
/-! SUPPORT. Laws/State.lean: what each shared operation does to each field of the state, so that no later proof unfolds a
record update; and what a step can do. -/

namespace Sys2Proof.Machine

section Respond
variable (r : RspWord) (s : State)

@[simp] theorem respond_v : (respond r s).v = s.v := rfl
@[simp] theorem respond_prec : (respond r s).prec = s.prec := rfl
@[simp] theorem respond_m : (respond r s).m = s.m := rfl
@[simp] theorem respond_inputs : (respond r s).inputs = s.inputs := rfl
@[simp] theorem respond_rspPending : (respond r s).rspPending = s.rspPending ++ [r] := rfl
@[simp] theorem respond_rspDelivered : (respond r s).rspDelivered = s.rspDelivered := rfl
@[simp] theorem registerCount_respond : registerCount (respond r s) = registerCount s := rfl

end Respond

section Raise
variable (e : ErrorCode) (s : State)

@[simp] theorem raiseError_v : (raiseError e s).v = s.v := rfl
@[simp] theorem raiseError_prec : (raiseError e s).prec = s.prec := rfl
@[simp] theorem raiseError_m : (raiseError e s).m = s.m := rfl
@[simp] theorem raiseError_inputs : (raiseError e s).inputs = s.inputs := rfl
@[simp] theorem raiseError_rspPending : (raiseError e s).rspPending = s.rspPending ++ [errorResponse e] := rfl
@[simp] theorem raiseError_rspDelivered : (raiseError e s).rspDelivered = s.rspDelivered := rfl

end Raise

section Reset
variable (s : State)

@[simp] theorem resetBlock_v : (resetBlock s).v = false := rfl
@[simp] theorem resetBlock_prec : (resetBlock s).prec = 0#6 := rfl
@[simp] theorem resetBlock_m : (resetBlock s).m = s.m := rfl
@[simp] theorem resetBlock_inputs : (resetBlock s).inputs = s.inputs := rfl
@[simp] theorem resetBlock_rspPending : (resetBlock s).rspPending = [] := rfl
@[simp] theorem resetBlock_rspDelivered : (resetBlock s).rspDelivered = s.rspDelivered := rfl

end Reset

section Deliver
variable (s : State)

@[simp] theorem deliverResponse_v : (deliverResponse s).v = s.v := by unfold deliverResponse; split <;> rfl
@[simp] theorem deliverResponse_prec : (deliverResponse s).prec = s.prec := by unfold deliverResponse; split <;> rfl
@[simp] theorem deliverResponse_m : (deliverResponse s).m = s.m := by unfold deliverResponse; split <;> rfl
@[simp] theorem deliverResponse_inputs : (deliverResponse s).inputs = s.inputs := by
  unfold deliverResponse; split <;> rfl

/-- A delivery moves a response; it neither makes nor loses one. -/
theorem deliverResponse_responses :
    (deliverResponse s).rspDelivered ++ (deliverResponse s).rspPending = s.rspDelivered ++ s.rspPending := by
  unfold deliverResponse
  split
  · rfl
  · simp_all

end Deliver

/-- `exec` on each command, without unfolding a meaning. -/
@[simp] theorem exec_new (p : Int) (s : State) : exec (.new p) s = .next (newCommand Config.params p s) := rfl
@[simp] theorem exec_add (h : Word64) (s : State) : exec (.add h) s = .next (addCommand Config.params h s) := rfl
@[simp] theorem exec_count (s : State) : exec .count s = .next (countCommand Config.params s) := rfl

/-- Everything `NEW` can do: answer `OK` with a fresh estimator, or raise `InvalidPrecision`. -/
theorem newCommand_cases (P : Params) (p : Int) (s : State) :
    (acceptsPrecision P p = true ∧ newCommand P p s =
      respond okResponse { s with v := true, prec := BitVec.ofNat 6 p.toNat, m := Memory.cleared }) ∨
    (acceptsPrecision P p = false ∧ newCommand P p s = raiseError .invalidPrecision s) := by
  unfold newCommand
  cases acceptsPrecision P p <;> simp

/-- Everything `ADD` can do: answer `OK` with one register updated, or raise `NoEstimator`. -/
theorem addCommand_cases (P : Params) (h : Word64) (s : State) :
    (s.v = true ∧ addCommand P h s = respond okResponse
      { s with m := updateRegister (hashIndex s.prec.toNat h) (hashRank P s.prec.toNat h) s.m }) ∨
    (s.v = false ∧ addCommand P h s = raiseError .noEstimator s) := by
  unfold addCommand
  cases s.v <;> simp

/-- Everything `COUNT` can do: answer with the estimate, or raise `NoEstimator`; no state either way. -/
theorem countCommand_cases (P : Params) (s : State) :
    (s.v = true ∧ countCommand P s = respond (countResponse (estimate P (registerCount s) s.m)) s) ∨
    (s.v = false ∧ countCommand P s = raiseError .noEstimator s) := by
  unfold countCommand
  cases s.v <;> simp

/-- `execWith` on each command, without unfolding a meaning. -/
@[simp] theorem execWith_new (P : Params) (p : Int) (s : State) : execWith P (.new p) s = .next (newCommand P p s) := rfl
@[simp] theorem execWith_add (P : Params) (h : Word64) (s : State) : execWith P (.add h) s = .next (addCommand P h s) := rfl
@[simp] theorem execWith_count (P : Params) (s : State) : execWith P .count s = .next (countCommand P s) := rfl

/-- The instance is the block at its parameters, command by command. -/
theorem exec_eq_execWith : exec = execWith Config.params := by
  funext i s
  cases i <;> rfl

/-- The instance is the block at its parameters, step by step. -/
theorem step_eq_stepWith : step = stepWith Config.params := by
  funext s
  simp only [step, stepWith, exec_eq_execWith]

/-- Everything a step can do, over any meaning of the commands. -/
theorem stepBy_cases {run : Instr → State → Host.Outcome State Fault Refusal} {s s' : State}
    (h : stepBy run s = .next s') :
    (s.inputs = [] ∧ s' = s) ∨
    ∃ e rest, s.inputs = e :: rest ∧ acceptEvent run e { s with inputs := rest } = .next s' := by
  unfold stepBy nextEvent at h
  cases hi : s.inputs with
  | nil => simp_all
  | cons e rest => exact .inr ⟨e, rest, rfl, by simpa [hi] using h⟩

/-- Everything one host event can do under the parameters `P`. -/
theorem acceptEvent_cases {P : Params} {e : HostEvent} {s s' : State} (h : acceptEvent (execWith P) e s = .next s') :
    (∃ w p, e = .command w ∧ decode w = .ok (.new p) ∧ s' = newCommand P p s) ∨
    (∃ w x, e = .command w ∧ decode w = .ok (.add x) ∧ s' = addCommand P x s) ∨
    (∃ w, e = .command w ∧ decode w = .ok .count ∧ s' = countCommand P s) ∨
    (∃ w why, e = .command w ∧ decode w = .error why ∧ s' = illegalCommand s) ∨
    (e = .takeResponse ∧ s' = deliverResponse s) ∨
    (e = .reset ∧ s' = resetBlock s) := by
  cases e with
  | command w =>
    simp only [acceptEvent, acceptCommand] at h
    cases hd : decode w with
    | ok i => cases i <;> simp_all
    | error why => simp_all
  | takeResponse => simp_all [acceptEvent]
  | reset => simp_all [acceptEvent]

/-- Everything a step can do under the parameters `P`. -/
theorem stepWith_cases {P : Params} {s s' : State} (h : stepWith P s = .next s') :
    (s.inputs = [] ∧ s' = s) ∨
    ∃ e rest, s.inputs = e :: rest ∧ acceptEvent (execWith P) e { s with inputs := rest } = .next s' :=
  stepBy_cases h

/-- Everything a step of the instance can do. -/
theorem step_cases {s s' : State} (h : step s = .next s') :
    (s.inputs = [] ∧ s' = s) ∨
    ∃ e rest, s.inputs = e :: rest ∧
      acceptEvent (execWith Config.params) e { s with inputs := rest } = .next s' := by
  rw [step_eq_stepWith] at h
  exact stepWith_cases h

/-- A run of no steps. -/
@[simp] theorem runStepsWith_zero (P : Params) (s : State) : Safety.runStepsWith P 0 s = .next s := rfl

/-- A run, one step at a time. -/
theorem runStepsWith_succ {P : Params} {n : Nat} {s t : State} (h : stepWith P s = .next t) :
    Safety.runStepsWith P (n + 1) s = Safety.runStepsWith P n t := by
  show Host.Core.run (coreWith P) (n + 1) s = _
  simp only [Host.Core.run, coreWith]
  rw [h]
  rfl

/-- Every step under any parameters answers a next state. -/
theorem stepWith_next (P : Params) (s : State) : ∃ t, stepWith P s = .next t := by
  unfold stepWith stepBy
  cases nextEvent s with
  | none => exact ⟨s, rfl⟩
  | some x =>
    obtain ⟨e, t⟩ := x
    cases e with
    | command w =>
      simp only [acceptEvent, acceptCommand]
      cases decode w with
      | ok i => cases i <;> exact ⟨_, rfl⟩
      | error why => exact ⟨_, rfl⟩
    | takeResponse => exact ⟨_, rfl⟩
    | reset => exact ⟨_, rfl⟩

/-- Runs of the instance are runs of the block at its parameters. -/
theorem runSteps_eq_runStepsWith (n : Nat) (s : State) : Safety.runSteps n s = Safety.runStepsWith Config.params n s := by
  induction n generalizing s with
  | zero => rfl
  | succ n ih =>
    obtain ⟨t, ht⟩ := stepWith_next Config.params s
    rw [runStepsWith_succ ht, ← ih]
    show Host.Core.run core (n + 1) s = _
    simp only [Host.Core.run, core, step_eq_stepWith]
    rw [ht]
    rfl

/-- A run of no steps of the instance. -/
@[simp] theorem runSteps_zero (s : State) : Safety.runSteps 0 s = .next s := rfl

/-- A run of the instance, one step at a time. -/
theorem runSteps_succ {n : Nat} {s t : State} (h : step s = .next t) :
    Safety.runSteps (n + 1) s = Safety.runSteps n t := by
  rw [step_eq_stepWith] at h
  rw [runSteps_eq_runStepsWith, runSteps_eq_runStepsWith, runStepsWith_succ h]

end Sys2Proof.Machine
end

