-- ==== Sys2Proof/Tests/Slice0.lean ====
section
/-! SUPPORT. Tests/Slice0.lean: small tests with results taken from spec/95_test_vectors.md and the corner-case tables of the
section files, and for every statement with hypotheses a witness that meets them. -/

namespace Sys2Proof.Tests

open Sys2Proof.Machine Sys2Proof.Safety

/-- The state a step ends in, if it ends in one. -/
def stateOf (o : Host.Outcome State Fault Refusal) : Option State :=
  match o with
  | .next t => some t
  | .fault _ => none
  | .refused _ => none

/-- A state with an estimator of precision `p` and the array `m`. -/
def est (p : BitVec 6) (m : Memory) : State := { State.reset with v := true, prec := p, m := m }

/-- An array whose first registers hold the given values. -/
def regs (xs : List Nat) : Memory :=
  (xs.zipIdx.map (fun e => (e.2, BitVec.ofNat 7 e.1))).filter (fun e => e.2 != 0#7)

/-- The responses waiting after one instruction. -/
def answer (i : Instr) (s : State) : Option (List RspWord) := (stateOf (exec i s)).map State.rspPending

/-- A state in which the host does the given things next. -/
def doing (es : List HostEvent) (s : State) : State := { s with inputs := es }

/-! ### WellFormed: the one check refuses an ill-formed term on each side -/

theorem test_wellFormed_refuses_above : (Instr.new (2 ^ 63)).wellFormed = false := by decide
theorem test_wellFormed_refuses_below : (Instr.new (-2 ^ 63 - 1)).wellFormed = false := by decide
theorem test_wellFormed_accepts_the_ends :
    (Instr.new (2 ^ 63 - 1)).wellFormed = true ∧ (Instr.new (-2 ^ 63)).wellFormed = true := by decide

/-! ### Decode: words written out bit by bit from 30_encoding.md R80, R83 to R85 (opcode byte, then operand) -/

theorem test_decode_new :
    decode (0b00000001#8 ++ 0b0000000000000000000000000000000000000000000000000000000000001010#64) = .ok (.new 10) := by
  decide
theorem test_decode_new_negative :
    decode (0b00000001#8 ++ 0b1111111111111111111111111111111111111111111111111111111111111111#64) = .ok (.new (-1)) := by
  decide
theorem test_decode_add :
    decode (0b00000010#8 ++ 0b1000000000000000000000000000000000000000000000000000000000000001#64) =
      .ok (.add 0x8000000000000001#64) := by decide
theorem test_decode_count : decode (0b00000011#8 ++ 0#64) = .ok .count := by decide
theorem test_decode_rejects_by_name :
    decode 0x000000000000000000#72 = .error (.reservedOpcode 0x00#8) ∧
    decode 0x040000000000000000#72 = .error (.reservedOpcode 0x04#8) ∧
    decode 0x800000000000000004#72 = .error (.reservedOpcode 0x80#8) ∧
    decode 0x030000000000000001#72 = .error (.countOperandNotZero 1#64) ∧
    decode 0x038000000000000000#72 = .error (.countOperandNotZero 0x8000000000000000#64) := by decide
theorem test_encode :
    encode (.new 16) = 0x010000000000000010#72 ∧ encode (.new (-2 ^ 63)) = 0x018000000000000000#72 ∧
    encode (.add 0x7C5F1E7EC483E214#64) = 0x027C5F1E7EC483E214#72 ∧ encode .count = 0x030000000000000000#72 := by decide
theorem test_decodeTableWord :
    decodeTableWord 72 0x010000000000000004 = some (.new 4) ∧ decodeTableWord 72 0x030000000000000001 = none ∧
    decodeTableWord 64 0x010000000000000004 = none := by decide

/-! ### NEW (40_construction.md R115, 95_test_vectors.md 2.1) -/

theorem test_new_clears :
    stateOf (exec (.new 10) (est 4 [(3, 7)])) = some { est 10 [] with rspPending := [0#72] } := by decide
theorem test_new_refuses :
    [3, 17, 0, 64, -1, -2 ^ 63, 2 ^ 63 - 1, 2 ^ 32 + 4].all (fun p => decide (stateOf (exec (.new p) (est 4 [(2, 61)])) =
      some { est 4 [(2, 61)] with rspPending := [0x010000000000000000#72] })) = true := by decide

/-! ### ADD (41_add.md R145, 95_test_vectors.md 2.2) -/

theorem test_add_index_and_rank :
    [(4, 0x0000000000000000#64, 0, 61), (4, 0xFFFFFFFFFFFFFFFF#64, 15, 1), (4, 0x0000000000000001#64, 0, 60),
     (4, 0x0400000000000000#64, 0, 2), (10, 0xFFC0000000000000#64, 1023, 55), (10, 0x001FFFFFFFFFFFFF#64, 0, 2),
     (16, 0x7C5F1E7EC483E214#64, 0x7C5F, 4), (16, 0x0000000000010000#64, 0, 32), (1, 1#64, 0, 63), (63, 2#64, 1, 2)].all
      (fun t => hashIndex t.1 t.2.1 == t.2.2.1 && hashRank Config.params t.1 t.2.1 == t.2.2.2) = true := by decide
theorem test_add_keeps_the_larger_rank :
    stateOf (exec (.add 0x2100000000000000#64) (est 4 [(2, 61)])) = some { est 4 [(2, 61)] with rspPending := [0#72] } ∧
    stateOf (exec (.add 0x0400000000000000#64) (est 4 [(0, 1), (1, 60)])) =
      some { est 4 [(0, 2), (1, 60)] with rspPending := [0#72] } := by decide

/-! ### COUNT (42_count.md R180, 95_test_vectors.md 2.3) -/

theorem test_count_branches :
    answer .count (est 4 (regs [0, 0, 0, 61])) = some [0x000000000000000001#72] ∧
    answer .count (est 4 (List.range 16 |>.map (fun i => (i, 1#7)))) = some [0x000000000000000019#72] ∧
    answer .count (est 4 (regs [0, 0, 0, 0, 0, 10, 10, 10, 10, 10, 10, 10, 10, 10, 10, 3])) = some [0x000000000000000012#72] ∧
    answer .count (est 4 (regs [0, 0, 0, 0, 0, 10, 10, 10, 10, 10, 10, 10, 10, 10, 10, 4])) = some [0x000000000000000028#72] := by
  decide +kernel
theorem test_count_saturates :
    answer .count (est 4 (List.range 16 |>.map (fun i => (i, if i < 6 then 61#7 else 60#7)))) =
      some [0x00FA2D68ACC3528E73#72] ∧
    answer .count (est 4 (List.range 16 |>.map (fun i => (i, if i < 7 then 61#7 else 60#7)))) =
      some [0x80FFFFFFFFFFFFFFFF#72] := by decide +kernel
theorem test_linCount :
    [(16, 5, 18), (1024, 1, 7097), (4096, 451, 9036), (65536, 65531, 5), (65536, 56606, 9600), (65536, 1, 726817)].all
      (fun t => linCount t.1 t.2.1 == t.2.2) = true := by decide +kernel

/-! ### The step: errors, reset, delivery, the first instruction after reset (95_test_vectors.md 2.4, 2.5, 3.1) -/

theorem test_first_word_after_reset :
    stateOf (step (State.reset.withFetchWord 72 0x010000000000000004)) = some { est 4 [] with rspPending := [0#72] } ∧
    stateOf (step (State.reset.withFetchWord 72 0x020000000000001234)) =
      some { State.reset with rspPending := [0x030000000000000000#72] } ∧
    stateOf (step (State.reset.withFetchWord 72 0x038000000000000000)) =
      some { State.reset with rspPending := [0x020000000000000000#72] } := by decide
theorem test_reset_and_delivery :
    stateOf (step (doing [.reset] { est 4 [(2, 61)] with rspPending := [0#72] })) = some { State.reset with m := [(2, 61)] } ∧
    stateOf (step (doing [.takeResponse] { State.reset with rspPending := [1#72, 2#72] })) =
      some { State.reset with rspPending := [2#72], rspDelivered := [1#72] } := by decide

/-! ### The assembler (30_encoding.md R97, R98) -/

theorem test_parseLine :
    parseLine ['n', 'e', 'w', ' ', '1', '6'] = some (.command (.new 16)) ∧
    parseLine ['N', 'e', 'w', ' ', '-', '0', 'x', '1', '_', '0', ';', 'x'] = some (.command (.new (-16))) ∧
    parseLine ['a', 'd', 'd', ' ', '1', '_'] = none ∧ parseLine ['c', 'o', 'u', 'n', 't', ' '] = some (.command .count) ∧
    parseLine ['a', 'd', 'd', 'e', ' ', '"', 'J', ';', '"'] = some (.element [0x4A#8, 0x3B#8]) ∧
    parseLine [' ', ';', 'x'] = some .empty := by decide
theorem test_listing :
    listing 0x01000000000000000A#72 =
      ['0', '1', ' ', '0', '0', '0', '0', '0', '0', '0', '0', '0', '0', '0', '0', '0', '0', '0', 'A'] := by decide

/-! ### Witnesses: for every statement with hypotheses, an input that meets them, at the ends of each range -/

/-- Admissible parameters at the other end of every range (00_scope.md R7), with the literal reading of D7. -/
def wide : Params := ⟨1, 63, 1, 1, .literal, linCount⟩

/-- The command word as an event. -/
def cmd (w : CmdWord) : HostEvent := .command w

def addWord : CmdWord := 0x020800000000000000#72
def countWord : CmdWord := 0x030000000000000000#72
def full : State := est 4 (regs (List.replicate 16 61))
def busy : State := { est 4 [(0, 1), (3, 7)] with rspPending := [0#72, 0x030000000000000000#72], rspDelivered := [5#72] }

/-- For `NewBuildsFreshEstimator`, `ClosedFormOfRegisters`, `ZeroExactlyWhenNeverHit` (with any hashes and any register
index) and `FreshEstimatorCountsZero`: both ends of the range. -/
theorem witness_new_range :
    ((4 : Int) ≤ 4 ∧ (4 : Int) ≤ 16) ∧ ((4 : Int) ≤ 16 ∧ (16 : Int) ≤ 16) := by decide
/-- For `FailedNewWritesNothing`: the nearest precision on each side. -/
theorem witness_new_out_of_range : ((3 : Int) < 4 ∨ (16 : Int) < 3) ∧ ((17 : Int) < 4 ∨ (16 : Int) < 17) := by decide
theorem witness_NewSucceedsExactlyInRange :
    wide.Admissible ∧ ((wide.pMin : Int) ≤ 1 ∧ (1 : Int) ≤ wide.pMax) ∧ ((wide.pMin : Int) ≤ 63 ∧ (63 : Int) ≤ wide.pMax) ∧
    ¬((wide.pMin : Int) ≤ 64 ∧ (64 : Int) ≤ wide.pMax) ∧ ((0 : Int) ≤ 0 ∨ (64 : Int) ≤ 0) ∧ ((64 : Int) ≤ 0 ∨ (64 : Int) ≤ 64) := by
  decide
/-- For `HashSplitsIntoIndexAndRankField` and, with `witness_rank_parameters`, for the three statements about ranks. -/
theorem witness_precision_ends : (1 ≤ 1 ∧ 1 ≤ 63) ∧ (1 ≤ 63 ∧ 63 ≤ 63) := by decide
/-- For `RankEquivalentForms`, `RankRangeAndValues` (`k` at both ends for `p = 1`) and `LiteralReadingDiffersOnlyAtZero`. -/
theorem witness_rank_parameters :
    Config.params.allZero = .stated ∧ wide.allZero = .literal ∧ (2 ≤ 2 ∧ 2 ≤ 64 - 1) ∧ (2 ≤ 63 ∧ 63 ≤ 64 - 1) := by decide
theorem witness_AddTakesTheMaximum : busy.v = true := by decide
theorem witness_NoEstimatorExactlyWithoutOne :
    (Instr.count = .count ∨ ∃ h, Instr.count = .add h) ∧ (Instr.add 0 = .count ∨ ∃ h, Instr.add 0 = .add h) ∧
    State.reset.v = false ∧ busy.v = true := ⟨.inl rfl, .inr ⟨0, rfl⟩, rfl, rfl⟩
theorem witness_RepeatedAddChangesNothing :
    ∃ t u, (doing [cmd addWord, .takeResponse] busy).v = true ∧
      exec (.add 0x3000000000000000#64) (doing [cmd addWord, .takeResponse] busy) = .next t ∧
      (∀ e ∈ t.inputs.take 2, endsLifetime Config.params e = false) ∧ runSteps 2 t = .next u :=
  ⟨_, _, rfl, rfl, by decide, rfl⟩
/-- The same two hashes in either order, once with a `COUNT`, a failing `NEW`, an illegal word and a delivery between. -/
theorem witness_AddOrderDoesNotMatter :
    busy.v = true ∧ busy.m.wf ∧
    (∀ e ∈ [cmd addWord, cmd countWord, cmd 0x010000000000000003#72, cmd 0#72, .takeResponse, cmd 0x020400000000000000#72],
      endsLifetime Config.params e = false) ∧
    (∀ e ∈ [cmd 0x020400000000000000#72, cmd addWord], endsLifetime Config.params e = false) ∧
    ([cmd addWord, cmd countWord, cmd 0x010000000000000003#72, cmd 0#72, .takeResponse,
        cmd 0x020400000000000000#72].filterMap addedHash).Perm
      ([cmd 0x020400000000000000#72, cmd addWord].filterMap addedHash) := by
  refine ⟨rfl, by decide, by simp only [List.forall_mem_cons]; decide, by simp only [List.forall_mem_cons]; decide, ?_⟩
  exact List.Perm.swap 0x0400000000000000#64 0x0800000000000000#64 []
theorem witness_BackToBackAddsKeepBoth :
    busy.v = true ∧ Reference.index busy.prec.toNat 0x0800000000000000#64 = Reference.index busy.prec.toNat 0x0400000000000000#64 := by
  decide
theorem witness_AddBehindFailedNew : ((17 : Int) < 4 ∨ (16 : Int) < 17) ∧ State.reset.v = false ∧ busy.v = true := by decide
/-- For `CountAnswersTheExactEstimate`, `IntegerFormsOfRawBranch` and `SumAndRawEstimateBounds`: an ordinary state, every
register at its bound, and a fresh estimator of the largest precision. -/
theorem witness_legal_state_with_estimator :
    Inv Config.params busy ∧ busy.v = true ∧ Inv Config.params (full) ∧
    Inv Config.params (est 16 []) := by decide
theorem witness_CountExactUpToLogarithm : wide.Admissible ∧ busy.m.wf ∧ busy.v = true := by decide
theorem witness_LinearCountingIsExact :
    (4 ≤ 4 ∧ 4 ≤ 16 ∧ 1 ≤ 1 ∧ 1 ≤ 2 ^ 4) ∧ (4 ≤ 16 ∧ 16 ≤ 16 ∧ 1 ≤ 65536 ∧ 65536 ≤ 2 ^ 16) := by decide
theorem witness_LinearCountingNeverTooLarge : 1 ≤ 1 ∧ 1 ≤ 2 ^ 63 ∧ 2 ^ 63 ≤ 2 ^ 63 := by decide
theorem witness_SmallRangeTest : busy.m.wf := by decide

theorem sum_full : Reference.sum (full) = 16 / 2 ^ 61 := by
  have h : ∀ i ∈ Finset.range 16, ((full).m.read i).toNat = 61 := by decide
  have hr : Reference.registers (full) = 16 := by decide
  rw [Reference.sum, hr, Finset.sum_congr rfl (fun i hi => by rw [h i hi])]
  norm_num
theorem sum_fresh : Reference.sum (est 4 []) = 16 := by
  have hr : Reference.registers (est 4 []) = 16 := by decide
  have h : ∀ i, (est 4 []).m.read i = 0#7 := fun _ => rfl
  rw [Reference.sum, hr, Finset.sum_congr rfl (fun i _ => by rw [h i])]
  norm_num
theorem witness_CountSaturatesExactlyAbove64Bits :
    Inv Config.params (full) ∧
    (2 : ℝ) ^ 64 ≤ Reference.raw Config.params (full) ∧
    Inv Config.params (est 4 []) ∧ Reference.raw Config.params (est 4 []) < (2 : ℝ) ^ 64 := by
  have hr : ∀ m, Reference.registers (est 4 m) = 16 := fun m => by
    simp only [Reference.registers, est]; decide
  have hf : Reference.registers full = 16 := hr _
  refine ⟨by decide, ?_, by decide, ?_⟩
  · rw [Reference.raw, sum_full, hf, Reference.alpha]
    norm_num [Config.params]
  · rw [Reference.raw, sum_fresh, hr, Reference.alpha]
    norm_num [Config.params]
theorem witness_ManyEmptyRegistersGiveLinearCounting :
    Inv Config.params (est 4 (regs [1, 2, 3, 4, 5, 6, 7, 8, 9, 10])) ∧
    317608 * Reference.registers (est 4 (regs [1, 2, 3, 4, 5, 6, 7, 8, 9, 10])) ≤
      1000000 * Reference.zeros (est 4 (regs [1, 2, 3, 4, 5, 6, 7, 8, 9, 10])) := by decide
theorem witness_CountDependsOnlyOnHistogram :
    Inv Config.params (est 4 [(0, 2)]) ∧ Inv Config.params (est 4 [(5, 2)]) ∧ (est 4 [(0, 2)]).prec = (est 4 [(5, 2)]).prec ∧
    ∀ x : Reg, ((Finset.range (Reference.registers (est 4 [(0, 2)]))).filter (fun i => (est 4 [(0, 2)]).m.read i = x)).card =
      ((Finset.range (Reference.registers (est 4 [(5, 2)]))).filter (fun i => (est 4 [(5, 2)]).m.read i = x)).card := by
  decide +kernel
theorem witness_CountIsRepeatable : SameEstimator busy (doing [.reset] busy) := by decide
theorem witness_DecodeOfEncode :
    (Instr.new (2 ^ 63 - 1)).wellFormed = true ∧ (Instr.new (-2 ^ 63)).wellFormed = true ∧ (Instr.add 0).wellFormed = true ∧
    Instr.count.wellFormed = true := by decide
/-- For `EncodeOfDecode`. -/
theorem witness_decodes : decode addWord = .ok (.add 0x0800000000000000#64) ∧ decode countWord = .ok .count := by decide
theorem witness_IllegalWordsAnswerIllegalCommand :
    (doing [cmd 0x000000000000000000#72] busy).inputs = .command 0x000000000000000000#72 :: [] ∧
    [0x000000000000000000#72, 0x04FFFFFFFFFFFFFFFF#72, 0xFF0000000000000000#72, 0x030000000000000001#72,
      0x03FFFFFFFFFFFFFFFF#72].all (fun w => decide
        (w.toNat / 2 ^ 64 ≠ 1 ∧ w.toNat / 2 ^ 64 ≠ 2 ∧ w.toNat / 2 ^ 64 ≠ 3 ∨
          w.toNat / 2 ^ 64 = 3 ∧ w.toNat % 2 ^ 64 ≠ 0)) = true := by decide
theorem witness_LegalWordsNeverAnswerIllegalCommand :
    ∃ t, (doing [cmd countWord] State.reset).inputs = .command countWord :: [] ∧
      (countWord.toNat / 2 ^ 64 = 1 ∨ countWord.toNat / 2 ^ 64 = 2 ∨ countWord.toNat = 3 * 2 ^ 64) ∧
      (addWord.toNat / 2 ^ 64 = 1 ∨ addWord.toNat / 2 ^ 64 = 2 ∨ addWord.toNat = 3 * 2 ^ 64) ∧
      step (doing [cmd countWord] State.reset) = .next t := ⟨_, rfl, by decide, by decide, rfl⟩
/-- For `StepRunsTheDecodedInstruction`, and its first part for `EveryStepAnswers`. -/
theorem witness_StepRunsTheDecodedInstruction :
    (doing [cmd addWord, .reset] busy).inputs = .command addWord :: [.reset] ∧
    decode addWord = .ok (.add 0x0800000000000000#64) := ⟨rfl, by decide⟩
theorem witness_StepRunsTheOfferedWord : decodeTableWord 72 0x010000000000000004 = some (.new 4) := by decide
theorem witness_IdleBlockWaits : State.reset.inputs = [] := rfl
/-- A failing command and its response. -/
theorem witness_ErrorsWriteNoState :
    ∃ t r, (doing [cmd countWord] State.reset).inputs = .command countWord :: [] ∧
      step (doing [cmd countWord] State.reset) = .next t ∧ t.rspPending = State.reset.rspPending ++ [r] ∧
      r.extractLsb' 64 4 ≠ 0#4 := ⟨_, 0x030000000000000000#72, rfl, rfl, by decide, by decide⟩
/-- A saturating `COUNT`, whose response has `SAT` and data, and a command that is no successful `COUNT`. -/
theorem witness_StatusByteRules :
    (∃ t, (doing [cmd addWord] State.reset).inputs = .command addWord :: [] ∧
      step (doing [cmd addWord] State.reset) = .next t ∧ t.rspPending = State.reset.rspPending ++ [0x030000000000000000#72]) ∧
    ∃ t, (doing [cmd countWord] full).inputs = .command countWord :: [] ∧ step (doing [cmd countWord] full) = .next t ∧
      t.rspPending = (doing [cmd countWord] full).rspPending ++ [0x80FFFFFFFFFFFFFFFF#72] ∧
      (0x80FFFFFFFFFFFFFFFF#72).toNat / 2 ^ 64 = 0x80 ∧ (0x80FFFFFFFFFFFFFFFF#72).toNat % 2 ^ 64 ≠ 0 :=
  ⟨⟨_, rfl, rfl, by decide⟩, countCommand Config.params full, rfl, rfl, by decide +kernel, by decide, by decide⟩
theorem witness_OneResponsePerCommandInOrder :
    ∃ t, HostEvent.reset ∉ (doing [cmd addWord, .takeResponse] busy).inputs.take 2 ∧
      runSteps 2 (doing [cmd addWord, .takeResponse] busy) = .next t ∧
      (0 < 2 ∧ (doing [cmd addWord, .takeResponse] busy).inputs[0]? = some (.command addWord)) ∧
      (doing [.reset] busy).inputs = .reset :: [] := ⟨_, by decide, rfl, by decide, rfl⟩
theorem witness_OfferedResponseIsHeld :
    ∃ t, rspValid (doing [cmd addWord] busy) = true ∧ rspWord (doing [cmd addWord] busy) = some 0#72 ∧
      (doing [cmd addWord] busy).inputs.head? ≠ some .takeResponse ∧ (doing [cmd addWord] busy).inputs.head? ≠ some .reset ∧
      step (doing [cmd addWord] busy) = .next t := ⟨_, by decide, by decide, by decide, by decide, rfl⟩
theorem witness_WaitingResponsesAreDelivered :
    (doing [.takeResponse, .takeResponse, .reset] busy).inputs =
      List.replicate (doing [.takeResponse, .takeResponse, .reset] busy).rspPending.length .takeResponse ++ [.reset] := by decide
theorem witness_RegistersNeverShrinkInALifetime :
    ∃ t, (doing [cmd addWord, .takeResponse] busy).v = true ∧
      (∀ e ∈ (doing [cmd addWord, .takeResponse] busy).inputs.take 2, endsLifetime Config.params e = false) ∧
      runSteps 2 (doing [cmd addWord, .takeResponse] busy) = .next t := ⟨_, rfl, by decide, rfl⟩
theorem witness_OnlyNewAndResetChangeControl :
    ∃ t u, step (doing [.reset] busy) = .next t ∧ (t.v ≠ busy.v ∨ t.prec ≠ busy.prec) ∧
      step (doing [cmd 0x010000000000000010#72] busy) = .next u ∧ (u.v ≠ busy.v ∨ u.prec ≠ busy.prec) :=
  ⟨_, _, rfl, by decide, rfl, by decide⟩
theorem witness_StepKeepsTheInvariant :
    ∃ t, Inv Config.params (doing [cmd addWord] busy) ∧ step (doing [cmd addWord] busy) = .next t := ⟨_, by decide, rfl⟩
theorem witness_CommandsKeepTheInvariant : wide.Admissible ∧ Inv wide (est 63 [(2 ^ 63 - 1, 65)]) := by decide +kernel
theorem witness_RegisterBoundAndShiftAmounts :
    Params.Admissible ⟨1, 63, 1, 1, .stated, linCount⟩ ∧ Inv ⟨1, 63, 1, 1, .stated, linCount⟩ (est 1 [(1, 64)]) ∧
    Inv ⟨1, 63, 1, 1, .stated, linCount⟩ (est 63 [(2 ^ 63 - 1, 2)]) := by decide +kernel
theorem witness_ResetAbandonsTheEstimator : (doing [.reset, cmd addWord] busy).inputs = .reset :: [cmd addWord] := rfl
theorem witness_ArrayUnobservableWithoutEstimator :
    State.reset.v = false ∧ SameButArray State.reset { State.reset with m := [(2, 61)] } := by decide
theorem witness_AssembledCommandsAreLegal :
    parseLine ['a', 'd', 'd', ' ', '0', 'x', 'F', 'f'] = some (.command (.add 0xFF#64)) := by decide
/-- For the statements about every set of parameters: the widest range, with the real logarithm itself as `LinCount`. -/
noncomputable def exactWide : Params :=
  ⟨1, 63, 1, 1, .stated, fun m c => ⌊(m : ℝ) * Real.log ((m : ℝ) / c)⌋₊⟩
theorem witness_CommandsUnderEveryParameterSet :
    exactWide.Admissible ∧ exactWide.allZero = .stated ∧ exactWide.LinCountExact ∧
    Inv exactWide (est 1 [(1, 64)]) ∧ Inv exactWide (est 63 [(2 ^ 63 - 1, 2)]) ∧ Inv exactWide State.reset ∧
    ((exactWide.pMin : Int) ≤ 1 ∧ (1 : Int) ≤ exactWide.pMax) ∧ ((exactWide.pMin : Int) ≤ 63 ∧ (63 : Int) ≤ exactWide.pMax) ∧
    ((0 : Int) < exactWide.pMin ∨ (exactWide.pMax : Int) < 0) ∧ ((64 : Int) < exactWide.pMin ∨ (exactWide.pMax : Int) < 64) :=
  ⟨by decide, rfl, fun _ _ _ _ _ _ => rfl, by decide +kernel, by decide +kernel, by decide, by decide, by decide, by decide,
    by decide⟩
/-- A run at precision 63, outside the defaults, and two steps that change `V` or `PREC`. -/
theorem witness_LifetimeUnderEveryParameterSet :
    ∃ t u r, exactWide.Admissible ∧ (doing [cmd addWord, .takeResponse] (est 63 [])).v = true ∧
      (∀ e ∈ (doing [cmd addWord, .takeResponse] (est 63 [])).inputs.take 2, endsLifetime exactWide e = false) ∧
      runStepsWith exactWide 2 (doing [cmd addWord, .takeResponse] (est 63 [])) = .next t ∧
      stepWith exactWide (doing [cmd 0x01000000000000003F#72] State.reset) = .next u ∧ u.v ≠ State.reset.v ∧
      stepWith exactWide (doing [.reset] (est 63 [])) = .next r ∧ r.v ≠ (est 63 []).v :=
  ⟨_, _, _, by decide, rfl, by decide, rfl, rfl, by decide, rfl, by decide⟩
theorem witness_AddeIsAddOfTheHash : '"' ∉ ['J', 'u', 'l', 'i'] ∧ '"' ∉ ([] : List Char) := by decide

end Sys2Proof.Tests
end

/-! ## One estimator lifetime (10_state.md R27, R31)

Within a lifetime the estimator can only grow: `ContinuesLifetime` is a preorder on states, every host event that does not
end the lifetime moves up in it, and so does every run of such events, under any parameters. -/

namespace Sys2Proof.Machine

open Sys2Proof.Safety

/-- `t` can follow `s` in one lifetime: the same `V` and `PREC`, and no register below its value in `s`
(10_state.md R27, R31). -/
def ContinuesLifetime (s t : State) : Prop :=
  t.v = s.v ∧ t.prec = s.prec ∧ ∀ i, (s.m.read i).toNat ≤ (t.m.read i).toNat

namespace ContinuesLifetime

theorem of_sameEstimator {s t : State} (h : SameEstimator s t) : ContinuesLifetime s t := by
  obtain ⟨hv, hprec, hm⟩ := h
  exact ⟨hv, hprec, fun i => by rw [hm]⟩

theorem refl (s : State) : ContinuesLifetime s s := of_sameEstimator ⟨rfl, rfl, rfl⟩

theorem trans {s t u : State} (hst : ContinuesLifetime s t) (htu : ContinuesLifetime t u) : ContinuesLifetime s u := by
  obtain ⟨hv, hprec, hm⟩ := hst
  obtain ⟨hv', hprec', hm'⟩ := htu
  exact ⟨hv'.trans hv, hprec'.trans hprec, fun i => (hm i).trans (hm' i)⟩

end ContinuesLifetime

/-! ### Commands read no input -/

@[simp] theorem newCommand_inputs (P : Params) (p : Int) (s : State) : (newCommand P p s).inputs = s.inputs := by
  rcases newCommand_cases P p s with ⟨-, h⟩ | ⟨-, h⟩ <;> simp [h]

@[simp] theorem addCommand_inputs (P : Params) (x : Word64) (s : State) : (addCommand P x s).inputs = s.inputs := by
  rcases addCommand_cases P x s with ⟨-, h⟩ | ⟨-, h⟩ <;> simp [h]

@[simp] theorem countCommand_inputs (P : Params) (s : State) : (countCommand P s).inputs = s.inputs := by
  rcases countCommand_cases P s with ⟨-, h⟩ | ⟨-, h⟩ <;> simp [h]

@[simp] theorem illegalCommand_inputs (s : State) : (illegalCommand s).inputs = s.inputs := rfl

theorem acceptEvent_inputs {P : Params} {e : HostEvent} {s t : State} (h : acceptEvent (execWith P) e s = .next t) :
    t.inputs = s.inputs := by
  rcases acceptEvent_cases h with ⟨_, _, _, _, rfl⟩ | ⟨_, _, _, _, rfl⟩ | ⟨_, _, _, rfl⟩ | ⟨_, _, _, _, rfl⟩ | ⟨_, rfl⟩ |
    ⟨_, rfl⟩ <;> simp

/-- A step takes the first of the host's events, whatever it is (assumption log entry 1). -/
theorem stepWith_inputs {P : Params} {s t : State} (h : stepWith P s = .next t) : t.inputs = s.inputs.tail := by
  rcases stepWith_cases h with ⟨hnil, rfl⟩ | ⟨e, rest, hcons, he⟩
  · simp [hnil]
  · simp [hcons, acceptEvent_inputs he]

/-- A run of `n + 1` steps is a step and a run of `n`. -/
theorem runStepsWith_succ_cases {P : Params} {n : Nat} {s t : State} (h : runStepsWith P (n + 1) s = .next t) :
    ∃ u, stepWith P s = .next u ∧ runStepsWith P n u = .next t := by
  obtain ⟨u, hu⟩ := stepWith_next P s
  exact ⟨u, hu, by rwa [runStepsWith_succ hu] at h⟩

/-! ### What each event does to a lifetime -/

@[simp] theorem endsLifetime_reset (P : Params) : endsLifetime P .reset = true := rfl

/-- A `NEW` ends the lifetime exactly when its precision is accepted (40_construction.md R111). -/
theorem endsLifetime_new {P : Params} {w : CmdWord} {p : Int} (hw : decode w = .ok (.new p)) :
    endsLifetime P (.command w) = acceptsPrecision P p := by
  simp [endsLifetime, hw]

/-- The register update never lowers a register (41_add.md R135, R136). -/
theorem read_le_updateRegister_read (m : Memory) (idx i : Nat) {rank : Nat} (h : rank < 128) :
    (m.read i).toNat ≤ ((updateRegister idx rank m).read i).toNat := by
  rw [updateRegister_read m idx i h]
  by_cases hi : i = idx
  · subst hi
    simp
  · simp [hi]

/-- An error writes no estimator state (60_exceptions.md R208). -/
theorem raiseError_continuesLifetime (e : ErrorCode) (s : State) : ContinuesLifetime s (raiseError e s) :=
  .of_sameEstimator ⟨rfl, rfl, rfl⟩

theorem newCommand_continuesLifetime {P : Params} {p : Int} (hp : acceptsPrecision P p = false) (s : State) :
    ContinuesLifetime s (newCommand P p s) := by
  rcases newCommand_cases P p s with ⟨hp', -⟩ | ⟨-, h⟩
  · simp [hp] at hp'
  · rw [h]
    exact raiseError_continuesLifetime _ s

theorem addCommand_continuesLifetime (P : Params) (x : Word64) (s : State) :
    ContinuesLifetime s (addCommand P x s) := by
  rcases addCommand_cases P x s with ⟨-, h⟩ | ⟨-, h⟩ <;> rw [h]
  · exact ⟨rfl, rfl, fun i => read_le_updateRegister_read _ _ i (hashRank_lt P _ _)⟩
  · exact raiseError_continuesLifetime _ s

/-- `COUNT` writes no estimator state (42_count.md R173). -/
theorem countCommand_continuesLifetime (P : Params) (s : State) : ContinuesLifetime s (countCommand P s) := by
  rcases countCommand_cases P s with ⟨-, h⟩ | ⟨-, h⟩ <;> rw [h]
  · exact .of_sameEstimator ⟨rfl, rfl, rfl⟩
  · exact raiseError_continuesLifetime _ s

theorem acceptEvent_continuesLifetime {P : Params} {e : HostEvent} {s t : State} (hlife : endsLifetime P e = false)
    (h : acceptEvent (execWith P) e s = .next t) : ContinuesLifetime s t := by
  rcases acceptEvent_cases h with ⟨w, p, rfl, hw, rfl⟩ | ⟨w, x, -, -, rfl⟩ | ⟨w, -, -, rfl⟩ | ⟨w, why, -, -, rfl⟩ | ⟨-, rfl⟩ |
    ⟨rfl, -⟩
  · rw [endsLifetime_new hw] at hlife
    exact newCommand_continuesLifetime hlife s
  · exact addCommand_continuesLifetime P x s
  · exact countCommand_continuesLifetime P s
  · exact raiseError_continuesLifetime _ s
  · exact .of_sameEstimator ⟨deliverResponse_v s, deliverResponse_prec s, deliverResponse_m s⟩
  · simp at hlife

theorem stepWith_continuesLifetime {P : Params} {s t : State} (hlife : ∀ e ∈ s.inputs.head?, endsLifetime P e = false)
    (h : stepWith P s = .next t) : ContinuesLifetime s t := by
  rcases stepWith_cases h with ⟨-, rfl⟩ | ⟨e, rest, hcons, he⟩
  · exact .refl t
  · exact acceptEvent_continuesLifetime (s := { s with inputs := rest }) (hlife e (by simp [hcons])) he

/-- A run none of whose events ends the lifetime stays in it, from any state and under any parameters. -/
theorem runStepsWith_continuesLifetime {P : Params} {n : Nat} {s t : State}
    (hlife : ∀ e ∈ s.inputs.take n, endsLifetime P e = false) (h : runStepsWith P n s = .next t) :
    ContinuesLifetime s t := by
  induction n generalizing s with
  | zero =>
    obtain rfl : s = t := by simpa using h
    exact .refl s
  | succ n ih =>
    obtain ⟨u, hstep, hrun⟩ := runStepsWith_succ_cases h
    have hfirst : ∀ e ∈ s.inputs.head?, endsLifetime P e = false := fun e he =>
      hlife e (List.mem_of_mem_head? (by simpa [List.head?_take] using he))
    have hlater : ∀ e ∈ u.inputs.take n, endsLifetime P e = false := by
      intro e he
      have htail : e ∈ (s.inputs.take (n + 1)).tail := by
        rwa [List.tail_take_eq_take_tail, Nat.add_sub_cancel, ← stepWith_inputs hstep]
      exact hlife e (List.mem_of_mem_tail htail)
    exact (stepWith_continuesLifetime hfirst hstep).trans (ih hlater hrun)

/-- Settles O44: `runSteps` is the parametric run at the default parameters, and a run
that does not end the lifetime stays in it. -/
theorem registersNeverShrinkInALifetime : Obligations.RegistersNeverShrinkInALifetime := by
  intro n s t hv hlife hrun
  rw [runSteps_eq_runStepsWith] at hrun
  obtain ⟨hv', hprec, hm⟩ := runStepsWith_continuesLifetime hlife hrun
  exact ⟨hv'.trans hv, hprec, hm⟩

end Sys2Proof.Machine

/-! ## One response per command, in the order of acceptance (20_memory.md R59)

The responses of a run, delivered and waiting, only grow at the end: by one for each accepted command, by none for a
delivery. `AddsResponses` composes over the steps of a run, and the place of each new response in the list is the number of
commands accepted before its own. -/

namespace Sys2Proof.Machine

open Sys2Proof.Safety

/-- From `s` to `t` the responses `rs` are new: what was delivered stays delivered, and the responses of `s`, delivered and
waiting, come first in their order (20_memory.md R59). -/
def AddsResponses (s t : State) (rs : List RspWord) : Prop :=
  s.rspDelivered <+: t.rspDelivered ∧ t.rspDelivered ++ t.rspPending = s.rspDelivered ++ s.rspPending ++ rs

/-- From `s` to `t` the block answers `r`: it waits behind the other responses, and nothing is delivered. -/
def Answers (s t : State) (r : RspWord) : Prop :=
  t.rspPending = s.rspPending ++ [r] ∧ t.rspDelivered = s.rspDelivered

namespace AddsResponses

theorem refl (s : State) : AddsResponses s s [] := ⟨List.prefix_rfl, by simp⟩

theorem trans {s t u : State} {rs qs : List RspWord} (hst : AddsResponses s t rs) (htu : AddsResponses t u qs) :
    AddsResponses s u (rs ++ qs) := by
  obtain ⟨hkept, hnew⟩ := hst
  obtain ⟨hkept', hnew'⟩ := htu
  exact ⟨hkept.trans hkept', by rw [hnew', hnew, List.append_assoc _ rs]⟩

theorem of_answers {s t : State} {r : RspWord} (h : Answers s t r) : AddsResponses s t [r] := by
  obtain ⟨hpending, hdelivered⟩ := h
  exact ⟨by rw [hdelivered], by rw [hdelivered, hpending, List.append_assoc]⟩

end AddsResponses

/-! ### The answer of each command -/

theorem raiseError_answers (e : ErrorCode) (s : State) : Answers s (raiseError e s) (errorResponse e) := ⟨rfl, rfl⟩

theorem newCommand_answers (P : Params) (p : Int) (s : State) : ∃ r, Answers s (newCommand P p s) r := by
  rcases newCommand_cases P p s with ⟨-, h⟩ | ⟨-, h⟩ <;> rw [h]
  · exact ⟨okResponse, rfl, rfl⟩
  · exact ⟨_, raiseError_answers _ s⟩

theorem addCommand_answers (P : Params) (x : Word64) (s : State) : ∃ r, Answers s (addCommand P x s) r := by
  rcases addCommand_cases P x s with ⟨-, h⟩ | ⟨-, h⟩ <;> rw [h]
  · exact ⟨okResponse, rfl, rfl⟩
  · exact ⟨_, raiseError_answers _ s⟩

theorem countCommand_answers (P : Params) (s : State) : ∃ r, Answers s (countCommand P s) r := by
  rcases countCommand_cases P s with ⟨-, h⟩ | ⟨-, h⟩ <;> rw [h]
  · exact ⟨_, rfl, rfl⟩
  · exact ⟨_, raiseError_answers _ s⟩

/-- A delivery adds nothing to the responses delivered and waiting. -/
theorem deliverResponse_addsResponses (s : State) : AddsResponses s (deliverResponse s) [] := by
  refine ⟨?_, by rw [deliverResponse_responses, List.append_nil]⟩
  unfold deliverResponse
  split
  · exact List.prefix_rfl
  · exact List.prefix_append _ _

/-! ### What each step adds -/

/-- How many of the host's next `n` events are commands. -/
def commandsIn (n : Nat) (s : State) : Nat := (s.inputs.take n).countP isCommand

theorem commandsIn_one {s : State} {e : HostEvent} {rest : List HostEvent} (h : s.inputs = e :: rest) :
    commandsIn 1 s = if isCommand e then 1 else 0 := by
  simp [commandsIn, h, List.countP_cons]

/-- The events after the first step are those before it, less the first. -/
theorem stepWith_take_inputs {P : Params} {s u : State} (h : stepWith P s = .next u) (n : Nat) :
    u.inputs.take n = (s.inputs.take (n + 1)).tail := by
  rw [List.tail_take_eq_take_tail, Nat.add_sub_cancel, stepWith_inputs h]

theorem commandsIn_succ {P : Params} {s u : State} (h : stepWith P s = .next u) (n : Nat) :
    commandsIn (n + 1) s = commandsIn 1 s + commandsIn n u := by
  simp only [commandsIn, stepWith_inputs h]
  cases s.inputs with
  | nil => simp
  | cons e rest => simp [List.countP_cons, Nat.add_comm]

/-- A step at an event performs that event on the state with the event taken. -/
theorem stepWith_cons (P : Params) {s : State} {e : HostEvent} {rest : List HostEvent} (h : s.inputs = e :: rest) :
    stepWith P s = acceptEvent (execWith P) e { s with inputs := rest } := by
  simp [stepWith, stepBy, nextEvent, h]

/-- Every event but a reset adds one response if it is a command, its answer, and none otherwise. -/
theorem acceptEvent_responses {P : Params} {e : HostEvent} {s t : State} (hreset : e ≠ .reset)
    (h : acceptEvent (execWith P) e s = .next t) :
    (isCommand e = true ∧ ∃ r, Answers s t r) ∨ (isCommand e = false ∧ AddsResponses s t []) := by
  rcases acceptEvent_cases h with ⟨w, p, rfl, -, rfl⟩ | ⟨w, x, rfl, -, rfl⟩ | ⟨w, rfl, -, rfl⟩ | ⟨w, why, rfl, -, rfl⟩ |
    ⟨rfl, rfl⟩ | ⟨rfl, -⟩
  · exact .inl ⟨rfl, newCommand_answers P p s⟩
  · exact .inl ⟨rfl, addCommand_answers P x s⟩
  · exact .inl ⟨rfl, countCommand_answers P s⟩
  · exact .inl ⟨rfl, _, raiseError_answers _ s⟩
  · exact .inr ⟨rfl, deliverResponse_addsResponses s⟩
  · exact absurd rfl hreset

/-- Every step but a reset adds as many responses as it accepts commands, each the answer of the step. -/
theorem stepWith_responses {P : Params} {s u : State} (hreset : s.inputs.head? ≠ some .reset) (h : stepWith P s = .next u) :
    ∃ rs, AddsResponses s u rs ∧ rs.length = commandsIn 1 s ∧ ∀ r ∈ rs, Answers s u r := by
  rcases stepWith_cases h with ⟨hnil, rfl⟩ | ⟨e, rest, hcons, he⟩
  · exact ⟨[], .refl u, by simp [commandsIn, hnil], by simp⟩
  · have hne : e ≠ .reset := by simpa [hcons] using hreset
    rcases acceptEvent_responses hne he with ⟨hcmd, r, hr⟩ | ⟨hcmd, hadds⟩
    · exact ⟨[r], .of_answers hr, by simp [commandsIn_one hcons, hcmd], List.forall_mem_singleton.mpr hr⟩
    · exact ⟨[], hadds, by simp [commandsIn_one hcons, hcmd], by simp⟩

/-! ### Runs without a reset -/

/-- `r` is the answer of step `k` of the run from `s`, counted from 0. -/
def AnsweredAt (P : Params) (s : State) (k : Nat) (r : RspWord) : Prop :=
  ∃ sk tk, runStepsWith P k s = .next sk ∧ stepWith P sk = .next tk ∧ Answers sk tk r

theorem answeredAt_succ {P : Params} {s u : State} {k : Nat} {r : RspWord} (hstep : stepWith P s = .next u)
    (h : AnsweredAt P u k r) : AnsweredAt P s (k + 1) r := by
  obtain ⟨sk, tk, hrun, hanswer⟩ := h
  exact ⟨sk, tk, by rw [runStepsWith_succ hstep, hrun], hanswer⟩

/-- `rs` are the responses to the commands among the first `n` events, each at its place in the order of acceptance. -/
def RunResponses (P : Params) (n : Nat) (s : State) (rs : List RspWord) : Prop :=
  rs.length = commandsIn n s ∧
  ∀ k w, k < n → s.inputs[k]? = some (.command w) → ∃ r, AnsweredAt P s k r ∧ rs[commandsIn k s]? = some r

/-- The responses of a run are those of its first step followed by those of the rest. -/
theorem runResponses_succ {P : Params} {n : Nat} {s u : State} {rs qs : List RspWord} (hstep : stepWith P s = .next u)
    (hlen : rs.length = commandsIn 1 s) (hanswer : ∀ r ∈ rs, Answers s u r) (hrest : RunResponses P n u qs) :
    RunResponses P (n + 1) s (rs ++ qs) := by
  obtain ⟨hlen', hplace⟩ := hrest
  refine ⟨by rw [List.length_append, hlen, hlen', ← commandsIn_succ hstep], fun k w hk hw => ?_⟩
  cases k with
  | zero =>
    obtain ⟨rest, hcons⟩ : ∃ rest, s.inputs = .command w :: rest :=
      List.head?_eq_some_iff.mp (by rw [List.head?_eq_getElem?, hw])
    obtain ⟨r, rfl⟩ : ∃ r, rs = [r] := List.length_eq_one_iff.mp (by rw [hlen, commandsIn_one hcons]; rfl)
    exact ⟨r, ⟨s, u, rfl, hstep, hanswer r (List.mem_singleton_self r)⟩, rfl⟩
  | succ k =>
    have hw' : u.inputs[k]? = some (.command w) := by rw [stepWith_inputs hstep, List.getElem?_tail, hw]
    obtain ⟨r, hr, hat⟩ := hplace k w (Nat.lt_of_succ_lt_succ hk) hw'
    refine ⟨r, answeredAt_succ hstep hr, ?_⟩
    rw [commandsIn_succ hstep, ← hlen, List.getElem?_append_right (Nat.le_add_right _ _), Nat.add_sub_cancel_left, hat]

/-- A run without a reset adds the responses to its commands, from any state and under any parameters. -/
theorem runStepsWith_responses {P : Params} {n : Nat} {s t : State} (hreset : HostEvent.reset ∉ s.inputs.take n)
    (h : runStepsWith P n s = .next t) : ∃ rs, AddsResponses s t rs ∧ RunResponses P n s rs := by
  induction n generalizing s with
  | zero =>
    obtain rfl : s = t := by simpa using h
    exact ⟨[], .refl s, rfl, fun k _ hk => absurd hk (Nat.not_lt_zero k)⟩
  | succ n ih =>
    obtain ⟨u, hstep, hrun⟩ := runStepsWith_succ_cases h
    have hfirst : s.inputs.head? ≠ some .reset := fun hhead =>
      hreset (List.mem_of_mem_head? (by simpa [List.head?_take] using hhead))
    have hlater : HostEvent.reset ∉ u.inputs.take n := fun hmem =>
      hreset (List.mem_of_mem_tail (stepWith_take_inputs hstep n ▸ hmem))
    obtain ⟨rs, hadds, hlen, hanswer⟩ := stepWith_responses hfirst hstep
    obtain ⟨qs, hadds', hrest⟩ := ih hlater hrun
    exact ⟨rs ++ qs, hadds.trans hadds', runResponses_succ hstep hlen hanswer hrest⟩

/-- Settles O41: the run without a reset is `runStepsWith_responses` at the default parameters; a reset step is
`resetBlock`. -/
theorem oneResponsePerCommandInOrder : Obligations.OneResponsePerCommandInOrder := by
  constructor
  · intro n s t hreset hrun
    rw [runSteps_eq_runStepsWith] at hrun
    obtain ⟨rs, ⟨hkept, hnew⟩, hlen, hplace⟩ := runStepsWith_responses hreset hrun
    refine ⟨hkept, rs, hnew, hlen, fun k w hk hw => ?_⟩
    obtain ⟨r, ⟨sk, tk, hrunk, hstepk, hpending, -⟩, hat⟩ := hplace k w hk hw
    rw [← runSteps_eq_runStepsWith] at hrunk
    rw [← step_eq_stepWith] at hstepk
    exact ⟨sk, tk, r, hrunk, hstepk, hpending, hat⟩
  · intro s rest hcons
    exact ⟨resetBlock { s with inputs := rest }, by rw [step_eq_stepWith, stepWith_cons _ hcons]; rfl, rfl, rfl⟩

end Sys2Proof.Machine

/-! ## Command words and their responses (30_encoding.md R86 to R92)

A command word's row of the mask and match table is a condition on its two fields, so the decoder and the table agree field
by field. What the block answers to a word depends on the word's decoding, `V`, and the estimate: `RespondsTo` has one
constructor per row of the table of responses. -/

namespace Sys2Proof

/-! ### The mask and match table on the fields of a word -/

/-- A masked word compared with a match word is its two masked fields compared with the two fields of the match. -/
theorem and_commandWord_eq_iff (w : CmdWord) (maskOp op : BitVec 8) (maskArg arg : Word64) :
    w &&& commandWord maskOp maskArg = commandWord op arg ↔
      opcodeField w &&& maskOp = op ∧ operandField w &&& maskArg = arg := by
  have hand : w &&& commandWord maskOp maskArg = commandWord (opcodeField w &&& maskOp) (operandField w &&& maskArg) := by
    conv_lhs => rw [← commandWord_fields w]
    exact BitVec.and_append
  rw [hand]
  constructor
  · intro h
    exact ⟨by simpa using congrArg opcodeField h, by simpa using congrArg operandField h⟩
  · rintro ⟨rfl, rfl⟩
    rfl

/-- The mask of `NEW` and `ADD` keeps the opcode and drops the operand. -/
theorem and_opcodeMask_eq_iff (w : CmdWord) (op : BitVec 8) :
    w &&& 0xFF0000000000000000#72 = commandWord op 0#64 ↔ opcodeField w = op := by
  have h := and_commandWord_eq_iff w (BitVec.allOnes 8) op 0#64 0#64
  rw [BitVec.and_allOnes, BitVec.and_zero] at h
  exact h.trans (and_iff_left rfl)

/-- The mask of `COUNT` keeps the whole word. -/
theorem and_fullMask_eq_iff (w : CmdWord) (op : BitVec 8) :
    w &&& 0xFFFFFFFFFFFFFFFFFF#72 = commandWord op 0#64 ↔ opcodeField w = op ∧ operandField w = 0#64 := by
  have h := and_commandWord_eq_iff w (BitVec.allOnes 8) op (BitVec.allOnes 64) 0#64
  rwa [BitVec.and_allOnes, BitVec.and_allOnes] at h

theorem rowNew_selects_iff (w : CmdWord) : rowNew.selects w = true ↔ opcodeField w = opcodeNew :=
  beq_iff_eq.trans (and_opcodeMask_eq_iff w opcodeNew)

theorem rowAdd_selects_iff (w : CmdWord) : rowAdd.selects w = true ↔ opcodeField w = opcodeAdd :=
  beq_iff_eq.trans (and_opcodeMask_eq_iff w opcodeAdd)

theorem rowCount_selects_iff (w : CmdWord) :
    rowCount.selects w = true ↔ opcodeField w = opcodeCount ∧ operandField w = 0#64 :=
  beq_iff_eq.trans (and_fullMask_eq_iff w opcodeCount)

/-! ### The decoder on the fields of a word -/

theorem decode_eq_new_iff (w : CmdWord) : (∃ p, decode w = .ok (.new p)) ↔ opcodeField w = opcodeNew := by
  rcases decode_cases w with ⟨hop, hd⟩ | ⟨hop, hd⟩ | ⟨hop, -, hd⟩ | ⟨hop, -, hd⟩ | ⟨hop, -, -, hd⟩
  · simp [hop, hd]
  · simp [hop, hd, opcodeNew, opcodeAdd]
  · simp [hop, hd, opcodeNew, opcodeCount]
  · simp [hop, hd, opcodeNew, opcodeCount]
  · simp [hop, hd]

theorem decode_eq_add_iff (w : CmdWord) : (∃ h, decode w = .ok (.add h)) ↔ opcodeField w = opcodeAdd := by
  rcases decode_cases w with ⟨hop, hd⟩ | ⟨hop, hd⟩ | ⟨hop, -, hd⟩ | ⟨hop, -, hd⟩ | ⟨-, hop, -, hd⟩
  · simp [hop, hd, opcodeNew, opcodeAdd]
  · simp [hop, hd]
  · simp [hop, hd, opcodeAdd, opcodeCount]
  · simp [hop, hd, opcodeAdd, opcodeCount]
  · simp [hop, hd]

theorem decode_eq_count_iff (w : CmdWord) :
    decode w = .ok .count ↔ opcodeField w = opcodeCount ∧ operandField w = 0#64 := by
  rcases decode_cases w with ⟨hop, hd⟩ | ⟨hop, hd⟩ | ⟨hop, harg, hd⟩ | ⟨hop, harg, hd⟩ | ⟨-, -, hop, hd⟩
  · simp [hop, hd, opcodeNew, opcodeCount]
  · simp [hop, hd, opcodeAdd, opcodeCount]
  · simp [hop, harg, hd]
  · simp [harg, hd]
  · simp [hop, hd]

/-- The illegal words: a reserved opcode (R91), or `COUNT` with an operand (R92). -/
theorem decode_eq_error_iff (w : CmdWord) :
    (∃ why, decode w = .error why) ↔
      (opcodeField w ≠ opcodeNew ∧ opcodeField w ≠ opcodeAdd ∧ opcodeField w ≠ opcodeCount) ∨
      (opcodeField w = opcodeCount ∧ operandField w ≠ 0#64) := by
  rcases decode_cases w with ⟨hop, hd⟩ | ⟨hop, hd⟩ | ⟨hop, harg, hd⟩ | ⟨hop, harg, hd⟩ | ⟨hnew, hadd, hcount, hd⟩
  · simp [hop, hd, opcodeNew, opcodeCount]
  · simp [hop, hd, opcodeAdd, opcodeCount]
  · simp [hop, harg, hd]
  · simp [hop, harg, hd]
  · simp [hnew, hadd, hcount, hd]

/-! ### The decoder and the table -/

/-- A word selects the row of the instruction it decodes to, and no other row. -/
theorem selects_iff_of_decode_ok {w : CmdWord} {i : Instr} (hd : decode w = .ok i) {row : OpcodeRow}
    (hrow : row ∈ opcodeTable) : row.selects w = true ↔ row = i.row := by
  simp only [opcodeTable, List.mem_cons, List.not_mem_nil, or_false] at hrow
  rcases hrow with rfl | rfl | rfl
  · rw [rowNew_selects_iff, ← decode_eq_new_iff, hd]
    cases i <;> simp [Instr.row, rowNew, rowAdd, rowCount]
  · rw [rowAdd_selects_iff, ← decode_eq_add_iff, hd]
    cases i <;> simp [Instr.row, rowNew, rowAdd, rowCount]
  · rw [rowCount_selects_iff, ← decode_eq_count_iff, hd]
    cases i <;> simp [Instr.row, rowNew, rowAdd, rowCount]

/-- An illegal word selects no row. -/
theorem selects_eq_false_of_decode_error {w : CmdWord} {why : DecodeError} (hd : decode w = .error why) {row : OpcodeRow}
    (hrow : row ∈ opcodeTable) : row.selects w = false := by
  simp only [opcodeTable, List.mem_cons, List.not_mem_nil, or_false] at hrow
  rw [Bool.eq_false_iff]
  rcases hrow with rfl | rfl | rfl
  · rw [Ne, rowNew_selects_iff, ← decode_eq_new_iff, hd]
    simp
  · rw [Ne, rowAdd_selects_iff, ← decode_eq_add_iff, hd]
    simp
  · rw [Ne, rowCount_selects_iff, ← decode_eq_count_iff, hd]
    simp

theorem countP_selects_of_decode_ok {w : CmdWord} {i : Instr} (hd : decode w = .ok i) :
    opcodeTable.countP (fun row => row.selects w) = 1 := by
  calc opcodeTable.countP (fun row => row.selects w)
      = opcodeTable.countP (fun row => row == i.row) :=
        List.countP_congr fun row hrow => by rw [selects_iff_of_decode_ok hd hrow, beq_iff_eq]
    _ = 1 := by cases i <;> rfl

theorem countP_selects_of_decode_error {w : CmdWord} {why : DecodeError} (hd : decode w = .error why) :
    opcodeTable.countP (fun row => row.selects w) = 0 :=
  List.countP_eq_zero.mpr fun _ hrow => by simp [selects_eq_false_of_decode_error hd hrow]

/-- Settles O31: each row is a condition on the two fields, and so is each answer of `decode`; a legal word selects one
row and an illegal one none. -/
theorem decodeFollowsOpcodeTable : Obligations.DecodeFollowsOpcodeTable := by
  intro w
  refine ⟨?_, ?_, ?_, ?_, ?_⟩
  · rw [decode_eq_new_iff]
    exact (and_opcodeMask_eq_iff w opcodeNew).symm
  · rw [decode_eq_add_iff]
    exact (and_opcodeMask_eq_iff w opcodeAdd).symm
  · rw [decode_eq_count_iff]
    exact (and_fullMask_eq_iff w opcodeCount).symm
  all_goals
    cases hd : decode w with
    | ok i => simp [countP_selects_of_decode_ok hd]
    | error why => simp [countP_selects_of_decode_error hd]

end Sys2Proof

namespace Sys2Proof.Machine

/-! ### Illegal words -/

/-- The illegal words as numbers (30_encoding.md R91, R92). -/
theorem decode_eq_error_of_toNat {w : CmdWord}
    (h : w.toNat / 2 ^ 64 ≠ 1 ∧ w.toNat / 2 ^ 64 ≠ 2 ∧ w.toNat / 2 ^ 64 ≠ 3 ∨
      w.toNat / 2 ^ 64 = 3 ∧ w.toNat % 2 ^ 64 ≠ 0) : ∃ why, decode w = .error why := by
  rw [decode_eq_error_iff]
  simpa [BitVec.toNat_eq, toNat_opcodeField, toNat_operandField, opcodeNew, opcodeAdd, opcodeCount] using h

/-- A step at an illegal word takes it from the port and raises `IllegalCommand`, in every state and under any
parameters. -/
theorem stepWith_of_decode_error (P : Params) {s : State} {w : CmdWord} {rest : List HostEvent} {why : DecodeError}
    (hcons : s.inputs = .command w :: rest) (hd : decode w = .error why) :
    stepWith P s = .next (illegalCommand { s with inputs := rest }) := by
  rw [stepWith_cons P hcons]
  simp [acceptEvent, acceptCommand, hd]

/-- Settles O32: such a word decodes to no command, and `illegalCommand` only appends its response. -/
theorem illegalWordsAnswerIllegalCommand : Obligations.IllegalWordsAnswerIllegalCommand := by
  intro s w rest hcons hillegal
  obtain ⟨why, hd⟩ := decode_eq_error_of_toNat hillegal
  rw [step_eq_stepWith, stepWith_of_decode_error _ hcons hd]
  rfl

/-! ### The response to each command -/

/-- The response to a word in the state that accepts it, from the word's decoding: one constructor per way a command can end
(30_encoding.md R89, R90; 60_exceptions.md R200 to R204). -/
inductive RespondsTo (P : Params) (s : State) : Except DecodeError Instr → RspWord → Prop where
  | newAccepted (p : Int) (hp : acceptsPrecision P p = true) : RespondsTo P s (.ok (.new p)) okResponse
  | newRefused (p : Int) (hp : acceptsPrecision P p = false) :
      RespondsTo P s (.ok (.new p)) (errorResponse .invalidPrecision)
  | added (x : Word64) (hv : s.v = true) : RespondsTo P s (.ok (.add x)) okResponse
  | addWithoutEstimator (x : Word64) (hv : s.v = false) : RespondsTo P s (.ok (.add x)) (errorResponse .noEstimator)
  | counted (hv : s.v = true) : RespondsTo P s (.ok .count) (countResponse (estimate P (registerCount s) s.m))
  | countWithoutEstimator (hv : s.v = false) : RespondsTo P s (.ok .count) (errorResponse .noEstimator)
  | illegal (why : DecodeError) : RespondsTo P s (.error why) (errorResponse .illegalCommand)

/-- Every accepted word is answered by its response. -/
theorem acceptEvent_command_responds {P : Params} {w : CmdWord} {s t : State}
    (h : acceptEvent (execWith P) (.command w) s = .next t) : ∃ r, Answers s t r ∧ RespondsTo P s (decode w) r := by
  rcases acceptEvent_cases h with ⟨_, p, ⟨⟩, hd, rfl⟩ | ⟨_, x, ⟨⟩, hd, rfl⟩ | ⟨_, ⟨⟩, hd, rfl⟩ | ⟨_, why, ⟨⟩, hd, rfl⟩ |
    ⟨⟨⟩, -⟩ | ⟨⟨⟩, -⟩ <;> rw [hd]
  · rcases newCommand_cases P p s with ⟨hp, h⟩ | ⟨hp, h⟩ <;> rw [h]
    · exact ⟨_, ⟨rfl, rfl⟩, .newAccepted p hp⟩
    · exact ⟨_, raiseError_answers _ s, .newRefused p hp⟩
  · rcases addCommand_cases P x s with ⟨hv, h⟩ | ⟨hv, h⟩ <;> rw [h]
    · exact ⟨_, ⟨rfl, rfl⟩, .added x hv⟩
    · exact ⟨_, raiseError_answers _ s, .addWithoutEstimator x hv⟩
  · rcases countCommand_cases P s with ⟨hv, h⟩ | ⟨hv, h⟩ <;> rw [h]
    · exact ⟨_, ⟨rfl, rfl⟩, .counted hv⟩
    · exact ⟨_, raiseError_answers _ s, .countWithoutEstimator hv⟩
  · exact ⟨_, raiseError_answers _ s, .illegal why⟩

/-- The one response that a step at a command word appends is the word's response. -/
theorem stepWith_command_responds {P : Params} {s t : State} {w : CmdWord} {rest : List HostEvent} {r : RspWord}
    (hcons : s.inputs = .command w :: rest) (hstep : stepWith P s = .next t) (hr : t.rspPending = s.rspPending ++ [r]) :
    RespondsTo P s (decode w) r := by
  rw [stepWith_cons P hcons] at hstep
  obtain ⟨r', ⟨hpending, -⟩, hresponds⟩ := acceptEvent_command_responds hstep
  obtain rfl : r = r' := by simpa using hr.symm.trans hpending
  -- `RespondsTo` reads `V`, `PREC` and the array only, which taking the word from the port leaves as they are.
  generalize decode w = d at hresponds ⊢
  cases hresponds <;> constructor <;> assumption

/-! ### The fields of each response, as numbers -/

theorem toNat_responseStatus (r : RspWord) : (responseStatus r).toNat = r.toNat / 2 ^ 64 := toNat_opcodeField r

theorem toNat_responseData (r : RspWord) : (responseData r).toNat = r.toNat % 2 ^ 64 := toNat_operandField r

theorem okResponse_toNat : okResponse.toNat = 0 := by decide

/-- An error's response as a number: its code as the status, and no data (60_exceptions.md R204). -/
theorem errorResponse_toNat (e : ErrorCode) : (errorResponse e).toNat = (errorCode e).toNat * 2 ^ 64 := by
  cases e <;> decide

theorem countResponse_status (n : Nat) :
    (countResponse n).toNat / 2 ^ 64 = if 2 ^ 64 - 1 < n then 0x80 else 0x00 := by
  rw [← toNat_responseStatus, responseStatus_countResponse]
  split <;> rfl

theorem countResponse_data (n : Nat) : (countResponse n).toNat % 2 ^ 64 = min n (2 ^ 64 - 1) := by
  rw [← toNat_responseData, responseData_countResponse]

/-- The default parameters refuse exactly the precisions outside `[4, 16]` (40_construction.md R111). -/
theorem acceptsPrecision_default_eq_false (p : Int) : acceptsPrecision Config.params p = false ↔ p < 4 ∨ 16 < p := by
  rw [← Bool.not_eq_true, acceptsPrecision_default]
  omega

/-- Settles O39: one case per way a command can end, each with its two response fields as numbers. -/
theorem statusByteRules : Obligations.StatusByteRules := by
  intro s t w rest r hcons hstep hr
  rw [step_eq_stepWith] at hstep
  have hresponds := stepWith_command_responds hcons hstep hr
  simp only [← acceptsPrecision_default_eq_false]
  generalize decode w = d at hresponds
  cases hresponds with
  | newAccepted p hp => simp [okResponse_toNat, hp]
  | newRefused p hp => simp [errorResponse_toNat, errorCode, hp]
  | added x hv => simp [okResponse_toNat, hv]
  | addWithoutEstimator x hv => simp [errorResponse_toNat, errorCode, hv]
  | counted hv =>
    rw [countResponse_status, countResponse_data]
    split <;> simp [hv] <;> omega
  | countWithoutEstimator hv => simp [errorResponse_toNat, errorCode, hv]
  | illegal why => simp [errorResponse_toNat, errorCode]

end Sys2Proof.Machine

/-! ## Construction: NEW (40_construction.md R111 to R114)

The two branches of `newCommand` as two equations, one per outcome of the precision check, with the response written out as
the number of 30_encoding.md's table; both are stated for any parameters, and the default block is one instance. -/

namespace Sys2Proof.Machine

/-! ### The responses of `NEW` as words, and the precision as a field -/

theorem okResponse_eq : okResponse = 0x000000000000000000#72 := by decide

theorem errorResponse_invalidPrecision_eq : errorResponse .invalidPrecision = 0x010000000000000000#72 := by decide

/-- `PREC` has 6 bits, so it holds every precision up to 63 exactly (00_scope.md R7, 10_state.md R22). -/
theorem toNat_precField {p : Int} (h0 : 0 ≤ p) (h63 : p ≤ 63) : ((BitVec.ofNat 6 p.toNat).toNat : Int) = p := by
  rw [BitVec.toNat_ofNat]
  omega

/-! ### The two branches of `NEW` -/

theorem newCommand_of_inRange {P : Params} {p : Int} (hp : (P.pMin : Int) ≤ p ∧ p ≤ (P.pMax : Int)) (s : State) :
    newCommand P p s =
      respond 0x000000000000000000#72 { s with v := true, prec := BitVec.ofNat 6 p.toNat, m := Memory.cleared } := by
  rw [← acceptsPrecision_iff] at hp
  rcases newCommand_cases P p s with ⟨-, h⟩ | ⟨hrefused, -⟩
  · rw [h, okResponse_eq]
  · simp [hp] at hrefused

theorem newCommand_of_outOfRange {P : Params} {p : Int} (hp : ¬((P.pMin : Int) ≤ p ∧ p ≤ (P.pMax : Int))) (s : State) :
    newCommand P p s = { s with rspPending := s.rspPending ++ [0x010000000000000000#72] } := by
  rw [← acceptsPrecision_iff] at hp
  rcases newCommand_cases P p s with ⟨haccepted, -⟩ | ⟨-, h⟩
  · exact absurd haccepted hp
  · rw [h, raiseError, errorResponse_invalidPrecision_eq, respond]

/-! ### The statements -/

/-- Settles O1: the accepting branch at the default parameters; its three writes are the whole change besides the response. -/
theorem newBuildsFreshEstimator : Obligations.NewBuildsFreshEstimator := by
  intro p s h4 h16
  have hprec := toNat_precField (p := p) (by omega) (by omega)
  refine ⟨newCommand Config.params p s, exec_new p s, ?_⟩
  rw [newCommand_of_inRange (P := Config.params) ⟨h4, h16⟩]
  exact ⟨rfl, hprec, fun i _ => Memory.read_cleared i, rfl, rfl, rfl⟩

/-- Settles O2: the refusing branch at the default parameters. -/
theorem failedNewWritesNothing : Obligations.FailedNewWritesNothing := by
  intro p s hp
  have hout : ¬(4 ≤ p ∧ p ≤ 16) := by omega
  rw [exec_new, newCommand_of_outOfRange (P := Config.params) hout]

/-- Settles O3: one clause per branch; the last follows from the refusing one, because an admissible range lies within
`[1, 63]`. -/
theorem newSucceedsExactlyInRange : Obligations.NewSucceedsExactlyInRange := by
  intro P p s ⟨hpMin, _, hpMax, _, _⟩
  refine ⟨fun hp => ?_, fun hp => newCommand_of_outOfRange hp s, fun hp => newCommand_of_outOfRange (by omega) s⟩
  have hprec := toNat_precField (p := p) (by omega) (by omega)
  rw [newCommand_of_inRange hp]
  exact ⟨rfl, hprec, fun i _ => Memory.read_cleared i, rfl⟩

end Sys2Proof.Machine

/-! ## Index and rank of a hash (41_add.md R131 to R133)

The index is the quotient of the hash by `2^(64-p)` and the rank field its remainder, so everything about the two fields is
arithmetic. The count of leading zeros of a nonzero word is a base-2 logarithm, and the rank field has the same logarithm as
the shifted word less `p`: that makes the three forms of the rank one number. -/

namespace Sys2Proof.Machine

/-! ### The two fields of a hash -/

theorem hashIndex_eq_index (p : Nat) (h : Word64) : hashIndex p h = Reference.index p h := by
  simp [hashIndex, shr64, Reference.index, Nat.shiftRight_eq_div_pow]

theorem rankField_lt (p : Nat) (h : Word64) : Reference.rankField p h < 2 ^ (64 - p) :=
  Nat.mod_lt _ (Nat.two_pow_pos _)

/-- The shifted word holds the rank field above `p` zero bits (41_add.md R132). -/
theorem toNat_rankWord {p : Nat} (hp : p ≤ 63) (h : Word64) :
    (rankWord p h).toNat = Reference.rankField p h * 2 ^ p := by
  have hsplit : 2 ^ 64 = 2 ^ (64 - p) * 2 ^ p := by rw [← pow_add]; congr 1; omega
  rw [rankWord, shl64, BitVec.toNat_shiftLeft, Nat.shiftLeft_eq, hsplit, Nat.mul_mod_mul_right, Reference.rankField]

/-- The index as a bit field: the top `p` bits of the hash (41_add.md R131). -/
theorem hashIndex_eq_extractLsb' {p : Nat} (hp : p ≤ 64) (h : Word64) :
    hashIndex p h = (h.extractLsb' (64 - p) p).toNat := by
  have hmod := Nat.mod_eq_of_lt (hashIndex_lt hp h)
  rw [BitVec.extractLsb'_toNat, ← hmod]
  simp [hashIndex, shr64]

/-- The rank field as a bit field: the low `64 - p` bits of the hash (41_add.md R132). -/
theorem rankField_eq_extractLsb' (p : Nat) (h : Word64) :
    Reference.rankField p h = (h.extractLsb' 0 (64 - p)).toNat := by
  simp [Reference.rankField]

/-- Settles O4: the index and the rank field are the quotient and the remainder by `2^(64-p)`. -/
theorem hashSplitsIntoIndexAndRankField : Obligations.HashSplitsIntoIndexAndRankField := by
  intro p h h1 h63
  have hlow : ∀ j, j < p → (rankWord p h).getLsbD j = false := fun j hj => by simp [rankWord, shl64, hj]
  have hsum : h.toNat = hashIndex p h * 2 ^ (64 - p) + Reference.rankField p h := by
    rw [hashIndex_eq_index]
    exact (Nat.div_add_mod' h.toNat (2 ^ (64 - p))).symm
  exact ⟨by omega, hashIndex_eq_extractLsb' (by omega) h, hashIndex_lt (by omega) h, rankField_eq_extractLsb' p h,
    toNat_rankWord h63 h, hlow, hsum⟩

/-! ### Leading zeros and the rank -/

/-- The leading zeros of a word, from its base-2 logarithm, at every width. -/
theorem toNat_clz {w : Nat} (x : BitVec w) :
    (BitVec.clz x).toNat = if x.toNat = 0 then w else w - 1 - Nat.log2 x.toNat := by
  have hzero : x.toNat = 0 ↔ x = 0#w := by simp [BitVec.toNat_eq]
  split
  · next h0 =>
    rw [BitVec.clz_eq_iff_eq_zero.mpr (hzero.mp h0)]
    exact Nat.mod_eq_of_lt Nat.lt_two_pow_self
  · next hne =>
    have hx : x ≠ 0#w := fun h0 => hne (hzero.mpr h0)
    have hclz : (BitVec.clz x).toNat < w := by simpa [BitVec.lt_def] using BitVec.clz_lt_iff_ne_zero.mpr hx
    have hlog : Nat.log2 x.toNat = w - 1 - (BitVec.clz x).toNat := by
      rw [Nat.log2_eq_iff hne]
      refine ⟨BitVec.two_pow_sub_clz_le_toNat_of_ne_zero (by omega) hx, ?_⟩
      rw [show w - 1 - (BitVec.clz x).toNat + 1 = w - (BitVec.clz x).toNat by omega]
      exact BitVec.toNat_lt_two_pow_sub_clz
    omega

/-- The model's `clz64` is the library's count of leading zeros (00_scope.md section 6). -/
theorem clz64_eq_clz (x : Word64) : clz64 x = (BitVec.clz x).toNat := by
  rw [toNat_clz, clz64]
  simp [BitVec.toNat_eq]

theorem log2_mul_two_pow {n : Nat} (hn : n ≠ 0) (k : Nat) : Nat.log2 (n * 2 ^ k) = Nat.log2 n + k := by
  induction k with
  | zero => simp
  | succ k ih => rw [pow_succ', Nat.mul_left_comm, Nat.log2_two_mul (by positivity), ih, Nat.add_assoc]

/-- The leading zeros of the shifted word, from the rank field (41_add.md R133, R134). -/
theorem clz64_rankWord {p : Nat} (hp : p ≤ 63) (h : Word64) :
    clz64 (rankWord p h) =
      if Reference.rankField p h = 0 then 64 else 63 - p - Nat.log2 (Reference.rankField p h) := by
  rw [clz64_eq_clz, toNat_clz, toNat_rankWord hp]
  by_cases hF : Reference.rankField p h = 0
  · simp [hF]
  · rw [if_neg (by positivity), if_neg hF, log2_mul_two_pow hF]
    omega

theorem log2_rankField_lt {p : Nat} {h : Word64} (hF : Reference.rankField p h ≠ 0) :
    Nat.log2 (Reference.rankField p h) < 64 - p :=
  (Nat.log2_lt hF).mpr (rankField_lt p h)

/-- Under the stated reading the machine's rank is the last form of 41_add.md R133. -/
theorem hashRank_eq_rank {P : Params} (hP : P.allZero = .stated) {p : Nat} (hp : p ≤ 63) (h : Word64) :
    hashRank P p h = Reference.rank p h := by
  simp only [hashRank, rankAllZero, hP, clz64_rankWord hp, Reference.rank]
  split
  · omega
  · next hF =>
    have hlog := log2_rankField_lt hF
    omega

/-- The last form of the rank counts the leading zeros of the rank field as a word of its own (41_add.md R133). -/
theorem rank_eq_clz_rankField {p : Nat} (hp : p ≤ 63) (h : Word64) :
    Reference.rank p h = 1 + (BitVec.clz (h.extractLsb' 0 (64 - p))).toNat := by
  rw [toNat_clz, ← rankField_eq_extractLsb', Reference.rank]
  split
  · omega
  · next hF =>
    have hlog := log2_rankField_lt hF
    omega

/-- Settles O5: the first form is the machine's own, with `clz64` as the library's count; the other two follow from
`hashRank_eq_rank`. -/
theorem rankEquivalentForms : Obligations.RankEquivalentForms := by
  intro P p h hP _ h63
  have hrank := hashRank_eq_rank hP h63 h
  refine ⟨?_, hrank.trans (rank_eq_clz_rankField h63 h), hrank⟩
  simp only [hashRank, rankAllZero, hP, clz64_eq_clz, rankWord, shl64]

end Sys2Proof.Machine

/-! ## Update: ADD (41_add.md R135 to R140)

In a lifetime the array is what the `ADD`s have made of it, whatever other events stand between them: `AddsHashes` says so,
and composes over the steps of a run. A register after a list of hashes is a maximum, so neither the order of the hashes nor
a repetition matters. -/

namespace Sys2Proof.Machine

open Sys2Proof.Safety

/-! ### The two outcomes of `ADD` and of `COUNT` -/

theorem errorResponse_noEstimator_eq : errorResponse .noEstimator = 0x030000000000000000#72 := by decide

/-- One hash folded into the array of an estimator of precision `p` (41_add.md R130). -/
def addHash (P : Params) (p : Nat) (m : Memory) (x : Word64) : Memory :=
  updateRegister (hashIndex p x) (hashRank P p x) m

/-- Every register after one hash (41_add.md R135). -/
theorem read_addHash (P : Params) (p : Nat) (m : Memory) (x : Word64) (i : Nat) :
    ((addHash P p m x).read i).toNat =
      if i = hashIndex p x then max (m.read i).toNat (hashRank P p x) else (m.read i).toNat := by
  rw [addHash, updateRegister_read m _ i (hashRank_lt P p x)]
  by_cases hi : i = hashIndex p x
  · simp [hi]
  · simp [hi]

/-- A hash whose rank the register has reached changes nothing (41_add.md R136). -/
theorem addHash_eq_self {P : Params} {p : Nat} {m : Memory} {x : Word64}
    (hle : hashRank P p x ≤ (m.read (hashIndex p x)).toNat) : addHash P p m x = m :=
  if_neg (Nat.not_lt.mpr hle)

theorem addCommand_of_estimator (P : Params) (x : Word64) {s : State} (hv : s.v = true) :
    addCommand P x s = respond 0x000000000000000000#72 { s with m := addHash P s.prec.toNat s.m x } := by
  rcases addCommand_cases P x s with ⟨-, h⟩ | ⟨hv', -⟩
  · rw [h, okResponse_eq, addHash]
  · simp [hv] at hv'

theorem addCommand_of_noEstimator (P : Params) (x : Word64) {s : State} (hv : s.v = false) :
    addCommand P x s = { s with rspPending := s.rspPending ++ [0x030000000000000000#72] } := by
  rcases addCommand_cases P x s with ⟨hv', -⟩ | ⟨-, h⟩
  · simp [hv] at hv'
  · rw [h, raiseError, errorResponse_noEstimator_eq, respond]

theorem countCommand_of_estimator (P : Params) {s : State} (hv : s.v = true) :
    countCommand P s = respond (countResponse (estimate P (registerCount s) s.m)) s := by
  rcases countCommand_cases P s with ⟨-, h⟩ | ⟨hv', -⟩
  · exact h
  · simp [hv] at hv'

theorem countCommand_of_noEstimator (P : Params) {s : State} (hv : s.v = false) :
    countCommand P s = { s with rspPending := s.rspPending ++ [0x030000000000000000#72] } := by
  rcases countCommand_cases P s with ⟨hv', -⟩ | ⟨-, h⟩
  · simp [hv] at hv'
  · rw [h, raiseError, errorResponse_noEstimator_eq, respond]

/-- The code of a `COUNT`'s response is that of success, saturated or not (42_count.md R171, R172). -/
theorem countResponse_code (n : Nat) : (countResponse n).extractLsb' 64 4 = 0#4 := by
  have hstatus := countResponse_status n
  apply BitVec.eq_of_toNat_eq
  rw [BitVec.extractLsb'_toNat, Nat.shiftRight_eq_div_pow, hstatus]
  split <;> rfl

/-- The machine's rank at the default parameters and a precision that the register `PREC` can hold. -/
theorem hashRank_default (prec : BitVec 6) (x : Word64) :
    hashRank Config.params prec.toNat x = Reference.rank prec.toNat x :=
  hashRank_eq_rank rfl (Nat.le_of_lt_succ prec.isLt) x

/-- Settles O8: `ADD` writes the array only, and every register after it is given by `read_addHash`. -/
theorem addTakesTheMaximum : Obligations.AddTakesTheMaximum := by
  intro x s hv
  refine ⟨addCommand Config.params x s, exec_add x s, ?_⟩
  rw [addCommand_of_estimator _ _ hv]
  refine ⟨fun i => ?_, rfl, rfl, rfl, rfl, rfl⟩
  simpa only [respond_m, hashIndex_eq_index, hashRank_default] using read_addHash Config.params s.prec.toNat s.m x i

/-- Settles O9: the two outcomes of `ADD` and of `COUNT`, by `V`. -/
theorem noEstimatorExactlyWithoutOne : Obligations.NoEstimatorExactlyWithoutOne := by
  rintro i s (rfl | ⟨x, rfl⟩)
  · refine ⟨fun hv => by rw [exec_count, countCommand_of_noEstimator _ hv], fun hv => ?_⟩
    exact ⟨_, _, by rw [exec_count, countCommand_of_estimator _ hv], rfl, countResponse_code _⟩
  · refine ⟨fun hv => by rw [exec_add, addCommand_of_noEstimator _ _ hv], fun hv => ?_⟩
    exact ⟨_, _, by rw [exec_add, addCommand_of_estimator _ _ hv], rfl, rfl⟩

/-! ### A repeated `ADD` -/

/-- After `ADD` the register of the hash has reached its rank. -/
theorem hashRank_le_read_addCommand (P : Params) (x : Word64) {s : State} (hv : s.v = true) :
    hashRank P s.prec.toNat x ≤ ((addCommand P x s).m.read (hashIndex s.prec.toNat x)).toNat := by
  rw [addCommand_of_estimator P x hv, respond_m, read_addHash, if_pos rfl]
  exact Nat.le_max_right _ _

/-- Anywhere later in the lifetime of an `ADD`, the same `ADD` only answers: its register has not shrunk meanwhile
(41_add.md R139, 10_state.md R27). -/
theorem addCommand_of_continuesLifetime {P : Params} {x : Word64} {s u : State} (hv : s.v = true)
    (hlater : ContinuesLifetime (addCommand P x s) u) : addCommand P x u = respond 0x000000000000000000#72 u := by
  obtain ⟨hv', hprec, -⟩ := (addCommand_continuesLifetime P x s).trans hlater
  obtain ⟨-, -, hgrown⟩ := hlater
  have hreached := (hashRank_le_read_addCommand P x hv).trans (hgrown _)
  rw [← hprec] at hreached
  rw [addCommand_of_estimator P x (hv'.trans hv), addHash_eq_self hreached]

/-- Settles O10: the run between the two `ADD`s stays in the lifetime, by `runStepsWith_continuesLifetime`. -/
theorem repeatedAddChangesNothing : Obligations.RepeatedAddChangesNothing := by
  intro x n s t u hv hadd hlife hrun
  obtain rfl : addCommand Config.params x s = t := by simpa using hadd
  rw [runSteps_eq_runStepsWith] at hrun
  have hlater := runStepsWith_continuesLifetime hlife hrun
  rw [exec_add, addCommand_of_continuesLifetime hv hlater, respond]

/-! ### The array after a list of hashes -/

/-- The hashes folded into the array one after another. -/
def addHashes (P : Params) (p : Nat) (m : Memory) (xs : List Word64) : Memory := xs.foldl (addHash P p) m

theorem addHashes_wf (P : Params) (p : Nat) {m : Memory} (hm : m.wf) (xs : List Word64) : (addHashes P p m xs).wf := by
  induction xs generalizing m with
  | nil => exact hm
  | cons x xs ih => exact ih (updateRegister_wf hm _ _)

/-- The ranks of those hashes that select register `i`. -/
def ranksAt (P : Params) (p i : Nat) (xs : List Word64) : List Nat :=
  (xs.filter (fun x => hashIndex p x = i)).map (hashRank P p)

/-- Each register ends as the maximum of its starting value and the ranks of the hashes that select it (41_add.md R140). -/
theorem read_addHashes (P : Params) (p : Nat) (m : Memory) (xs : List Word64) (i : Nat) :
    ((addHashes P p m xs).read i).toNat = (ranksAt P p i xs).foldr max (m.read i).toNat := by
  induction xs generalizing m with
  | nil => rfl
  | cons x xs ih =>
    have hfold : addHashes P p m (x :: xs) = addHashes P p (addHash P p m x) xs := rfl
    rw [hfold, ih, read_addHash]
    by_cases hi : hashIndex p x = i
    · have hranks : ranksAt P p i (x :: xs) = hashRank P p x :: ranksAt P p i xs := by simp [ranksAt, hi]
      rw [if_pos hi.symm, hranks, List.foldr_cons, List.foldr_assoc, max_comm]
    · have hranks : ranksAt P p i (x :: xs) = ranksAt P p i xs := by simp [ranksAt, hi]
      rw [if_neg (Ne.symm hi), hranks]

/-- The order of the hashes does not matter: maxima do not depend on it, and a canonical array is known by its registers. -/
theorem addHashes_perm (P : Params) (p : Nat) {m : Memory} (hm : m.wf) {xs ys : List Word64} (h : xs.Perm ys) :
    addHashes P p m xs = addHashes P p m ys := by
  refine Memory.eq_of_read_eq (addHashes_wf P p hm xs) (addHashes_wf P p hm ys) fun i => BitVec.eq_of_toNat_eq ?_
  have hranks : (ranksAt P p i xs).Perm (ranksAt P p i ys) := (h.filter _).map _
  rw [read_addHashes, read_addHashes, hranks.foldr_eq]

/-! ### Runs within a lifetime -/

/-- From `s` to `t` the lifetime goes on, and the array is that of `s` with the hashes `xs` folded in. -/
def AddsHashes (P : Params) (s t : State) (xs : List Word64) : Prop :=
  t.v = s.v ∧ t.prec = s.prec ∧ t.m = addHashes P s.prec.toNat s.m xs

namespace AddsHashes

theorem of_sameEstimator (P : Params) {s t : State} (h : SameEstimator s t) : AddsHashes P s t [] := h

theorem trans {P : Params} {s t u : State} {xs ys : List Word64} (hst : AddsHashes P s t xs) (htu : AddsHashes P t u ys) :
    AddsHashes P s u (xs ++ ys) := by
  obtain ⟨hv, hprec, hm⟩ := hst
  obtain ⟨hv', hprec', hm'⟩ := htu
  exact ⟨hv'.trans hv, hprec'.trans hprec, by rw [hm', hm, hprec, addHashes, addHashes, addHashes, List.foldl_append]⟩

end AddsHashes

/-- Every event that does not end the lifetime folds in the hash it carries, if any. -/
theorem acceptEvent_addsHashes {P : Params} {e : HostEvent} {s t : State} (hv : s.v = true)
    (hlife : endsLifetime P e = false) (h : acceptEvent (execWith P) e s = .next t) :
    AddsHashes P s t (addedHash e).toList := by
  rcases acceptEvent_cases h with ⟨w, p, rfl, hw, rfl⟩ | ⟨w, x, rfl, hw, rfl⟩ | ⟨w, rfl, hw, rfl⟩ | ⟨w, why, rfl, hw, rfl⟩ |
    ⟨rfl, rfl⟩ | ⟨rfl, -⟩
  · rw [endsLifetime_new hw] at hlife
    simp only [addedHash, hw]
    rcases newCommand_cases P p s with ⟨hp, -⟩ | ⟨-, hfail⟩
    · simp [hlife] at hp
    · rw [hfail]; exact .of_sameEstimator P ⟨rfl, rfl, rfl⟩
  · simp only [addedHash, hw]
    rw [addCommand_of_estimator P x hv]
    exact ⟨rfl, rfl, rfl⟩
  · simp only [addedHash, hw]
    rw [countCommand_of_estimator P hv]
    exact .of_sameEstimator P ⟨rfl, rfl, rfl⟩
  · simp only [addedHash, hw]
    exact .of_sameEstimator P ⟨rfl, rfl, rfl⟩
  · exact .of_sameEstimator P ⟨deliverResponse_v s, deliverResponse_prec s, deliverResponse_m s⟩
  · simp at hlife

/-- A run over all of the host's events, none of which ends the lifetime, folds in the hashes they carry, in their order. -/
theorem runStepsWith_addsHashes {P : Params} {es : List HostEvent} {s : State} (hv : s.v = true) (hes : s.inputs = es)
    (hlife : ∀ e ∈ es, endsLifetime P e = false) :
    ∃ t, runStepsWith P es.length s = .next t ∧ AddsHashes P s t (es.filterMap addedHash) := by
  induction es generalizing s with
  | nil => exact ⟨s, rfl, .of_sameEstimator P ⟨rfl, rfl, rfl⟩⟩
  | cons e es ih =>
    obtain ⟨u, hstep⟩ := stepWith_next P s
    have hrest : u.inputs = es := by rw [stepWith_inputs hstep, hes, List.tail_cons]
    have hfirst : AddsHashes P s u (addedHash e).toList :=
      acceptEvent_addsHashes (s := { s with inputs := es }) hv (hlife e List.mem_cons_self)
        (by rw [← stepWith_cons P hes, hstep])
    have hvu : u.v = true := hfirst.1.trans hv
    obtain ⟨t, hrun, hadds⟩ := ih hvu hrest fun e' he' => hlife e' (List.mem_cons_of_mem e he')
    refine ⟨t, by rw [List.length_cons, runStepsWith_succ hstep, hrun], ?_⟩
    simpa only [List.filterMap_eq_flatMap_toList, List.flatMap_cons] using hfirst.trans hadds

/-- Settles O11: both runs fold in their hashes, and the array does not depend on the order of these. -/
theorem addOrderDoesNotMatter : Obligations.AddOrderDoesNotMatter := by
  intro es fs s hv hm hes hfs hperm
  obtain ⟨t, hrun, hvt, hprec, hmt⟩ := runStepsWith_addsHashes (s := { s with inputs := es }) hv rfl hes
  obtain ⟨u, hrun', hvu, hprec', hmu⟩ := runStepsWith_addsHashes (s := { s with inputs := fs }) hv rfl hfs
  have hsame : u.m = t.m := by rw [hmu, hmt]; exact addHashes_perm _ _ hm hperm.symm
  refine ⟨t, u, by rw [runSteps_eq_runStepsWith, hrun], by rw [runSteps_eq_runStepsWith, hrun'],
    ⟨hvu.trans hvt.symm, hprec'.trans hprec.symm, hsame⟩, hvt.trans hv, hprec, fun i => ?_⟩
  rw [hmt, read_addHashes]
  simp only [ranksAt, hashIndex_eq_index, funext (hashRank_default s.prec)]

end Sys2Proof.Machine

/-! ## Estimation: COUNT (42_count.md R160 to R177)

The machine's integers are the spec's reals: the scaled sum is `2^127 * S`, so the small-range test and the raw floor are the
spec's by clearing denominators. Only linear counting needs more: the fixed-point logarithm is exact because `m * ln(m / c)`
is never just above an integer. -/

namespace Sys2Proof.Machine

/-! ### The two outcomes of `COUNT`, and its response -/

/-- Settles O16: whichever of its two outcomes `COUNT` has, it appends one response. -/
theorem countWritesNoState : Obligations.CountWritesNoState := by
  intro s
  rw [exec_count]
  rcases countCommand_cases Config.params s with ⟨-, h⟩ | ⟨-, h⟩
  · exact ⟨_, congrArg _ h⟩
  · exact ⟨_, congrArg _ h⟩

/-- The machine's response for a floored estimate is the spec's, written as a number (42_count.md R171, R172). -/
theorem countResponse_eq_responseOf (n : Nat) : countResponse n = Reference.responseOf n := by
  unfold countResponse Reference.responseOf
  split
  · decide
  · next hfits =>
    apply BitVec.eq_of_toNat_eq
    have hstatus : (statusByte false okCode).toNat = 0 := by decide
    rw [toNat_responseWord, hstatus, BitVec.toNat_ofNat, BitVec.toNat_ofNat]
    omega

/-! ### The sum, the test and the raw floor -/

section Raw
variable {P : Params} {s : State}

theorem registerCount_eq_registers (s : State) : registerCount s = Reference.registers s := rfl

theorem registers_pos (s : State) : 0 < Reference.registers s := Nat.two_pow_pos _

/-- `S > 0`, so the division of 42_count.md R163 is always defined (R165). -/
theorem sum_pos (s : State) : 0 < Reference.sum s :=
  Finset.sum_pos (fun i _ => by positivity) (Finset.nonempty_range_iff.mpr (registers_pos s).ne')

/-- The machine's integer sum is `S` scaled by `2^127` (42_count.md R162). -/
theorem scaledSum_eq_mul_sum (hm : s.m.wf) :
    (scaledSum (Reference.registers s) s.m : ℝ) = 2 ^ 127 * Reference.sum s := by
  rw [scaledSum_eq hm, Reference.sum, Finset.mul_sum, Nat.cast_sum]
  refine Finset.sum_congr rfl fun i _ => ?_
  have hfits : (s.m.read i).toNat ≤ 127 := Nat.le_of_lt_succ (s.m.read i).isLt
  rw [Nat.cast_pow, Nat.cast_ofNat, pow_sub₀ _ two_ne_zero hfits, zpow_neg, zpow_natCast]

/-- The integer form of `floor(E_raw)` (42_count.md R170, R175). -/
theorem rawFloor_eq_floor_raw (hm : s.m.wf) :
    rawFloor P (Reference.registers s) (scaledSum (Reference.registers s) s.m) = ⌊Reference.raw P s⌋₊ := by
  have hsum := (sum_pos s).ne'
  rw [rawFloor, ← Nat.floor_div_eq_div (K := ℝ)]
  simp only [Nat.cast_mul, Nat.cast_pow, Nat.cast_ofNat]
  rw [scaledSum_eq_mul_sum hm, Reference.raw, Reference.alpha]
  congr 1
  field_simp

/-- The machine's test compares `m` with `S`. -/
theorem smallRange_iff (hm : s.m.wf) :
    smallRange P (Reference.registers s) (scaledSum (Reference.registers s) s.m) = true ↔
      2 * P.alphaNum * (Reference.registers s : ℝ) ≤ 5 * P.alphaDen * Reference.sum s := by
  rw [smallRange, decide_eq_true_iff, Config.smallKNum, Config.smallKDen, ← Nat.cast_le (α := ℝ)]
  simp only [Nat.cast_mul, Nat.cast_pow, Nat.cast_ofNat]
  rw [scaledSum_eq_mul_sum hm, mul_left_comm (5 * (P.alphaDen : ℝ)), mul_comm, mul_le_mul_iff_right₀ (by positivity)]

/-- How far the raw estimate is from the threshold, by the same two numbers as in `smallRange_iff`. -/
theorem raw_sub_threshold (hden : 0 < P.alphaDen) :
    Reference.raw P s - 5 / 2 * (Reference.registers s : ℝ) =
      Reference.registers s / (2 * P.alphaDen * Reference.sum s) *
        (2 * P.alphaNum * (Reference.registers s : ℝ) - 5 * P.alphaDen * Reference.sum s) := by
  have hsum := (sum_pos s).ne'
  rw [Reference.raw, Reference.alpha]
  field_simp

/-- The factor of `raw_sub_threshold` is positive, so it does not change a comparison. -/
theorem raw_scale_pos (hden : 0 < P.alphaDen) :
    (0 : ℝ) < Reference.registers s / (2 * P.alphaDen * Reference.sum s) := by
  have hsum := sum_pos s
  have hreg := registers_pos s
  positivity

/-- The small-range test in terms of `S` (42_count.md R166). -/
theorem raw_le_threshold_iff (hden : 0 < P.alphaDen) :
    Reference.raw P s ≤ 5 / 2 * (Reference.registers s : ℝ) ↔
      2 * P.alphaNum * (Reference.registers s : ℝ) ≤ 5 * P.alphaDen * Reference.sum s := by
  rw [← sub_nonpos, raw_sub_threshold hden, ← not_lt, mul_pos_iff_of_pos_left (raw_scale_pos hden), not_lt, sub_nonpos]

theorem raw_eq_threshold_iff (hden : 0 < P.alphaDen) :
    Reference.raw P s = 5 / 2 * (Reference.registers s : ℝ) ↔
      2 * P.alphaNum * (Reference.registers s : ℝ) = 5 * P.alphaDen * Reference.sum s := by
  rw [← sub_eq_zero, raw_sub_threshold hden, mul_eq_zero_iff_left (raw_scale_pos hden).ne', sub_eq_zero]

end Raw

/-- Equality in the integer form of the test would need a factor 5 on its left side, which has none (42_count.md R175). -/
theorem threshold_ne (p T : Nat) : 2 * 39701 * 2 ^ p * 2 ^ 127 ≠ 5 * 50000 * T := by
  intro h
  have hdvd : 5 ∣ 2 * 39701 * 2 ^ (p + 127) := ⟨50000 * T, by rw [pow_add, ← mul_assoc, h, mul_assoc]⟩
  have hcop : Nat.Coprime 5 (2 ^ (p + 127)) := Nat.Coprime.pow_right _ (by decide)
  exact absurd (hcop.dvd_of_dvd_mul_right hdvd) (by decide)

/-- Settles O21: all forms of the test compare `m` with `S`; equality fails in the integers. -/
theorem smallRangeTest : Obligations.SmallRangeTest := by
  intro s hm
  have hden : 0 < Config.params.alphaDen := by decide
  have hle := raw_le_threshold_iff (s := s) hden
  refine ⟨by rw [registerCount_eq_registers, smallRange_iff hm, hle], hle.trans ?_, fun heq => ?_⟩
  · simp only [Config.params, Nat.cast_ofNat]
    constructor <;> intro h <;> linarith
  · have hreal := (raw_eq_threshold_iff hden).mp heq
    apply threshold_ne s.prec.toNat (scaledSum (Reference.registers s) s.m)
    have hreg : (Reference.registers s : ℝ) = 2 ^ s.prec.toNat := by simp [Reference.registers]
    simp only [Config.params, Nat.cast_ofNat, hreg] at hreal
    rw [← Nat.cast_inj (R := ℝ)]
    simp only [Nat.cast_mul, Nat.cast_pow, Nat.cast_ofNat]
    rw [scaledSum_eq_mul_sum hm]
    linear_combination 2 ^ 127 * hreal

/-! ### The whole of `COUNT`, up to the logarithm -/

/-- The machine's `n` is the spec's for every canonical array, with `LinCount` for the floor of linear counting
(42_count.md R160, R175, R176). -/
theorem estimate_eq {P : Params} {s : State} (hden : 0 < P.alphaDen) (hm : s.m.wf) :
    estimate P (registerCount s) s.m =
      if Reference.raw P s ≤ 5 / 2 * (Reference.registers s : ℝ) ∧ Reference.zeros s ≠ 0
        then P.linCount (Reference.registers s) (Reference.zeros s) else ⌊Reference.raw P s⌋₊ := by
  have hzeros : zeroCount (Reference.registers s) s.m = Reference.zeros s := zeroCount_eq hm _
  rw [registerCount_eq_registers, estimate, hzeros, rawFloor_eq_floor_raw hm]
  simp only [Bool.and_eq_true, bne_iff_ne, smallRange_iff hm, raw_le_threshold_iff hden]

theorem zeros_le_registers (s : State) : Reference.zeros s ≤ Reference.registers s := by
  simpa [Reference.zeros] using Finset.card_filter_le (Finset.range (Reference.registers s)) (fun i => s.m.read i = 0#7)

/-- With an exact `LinCount` the machine's `n` is the floor of the spec's estimate (42_count.md R170). -/
theorem estimate_eq_floor {P : Params} {s : State} (hden : 0 < P.alphaDen) (hlin : P.LinCountExact) (hm : s.m.wf)
    (hmin : P.pMin ≤ s.prec.toNat) (hmax : s.prec.toNat ≤ P.pMax) :
    estimate P (registerCount s) s.m = ⌊Reference.estimate P s⌋₊ := by
  rw [estimate_eq hden hm, Reference.estimate]
  split
  · next hsmall =>
    exact hlin _ _ hmin hmax (Nat.one_le_iff_ne_zero.mpr hsmall.2) (zeros_le_registers s)
  · rfl

/-- With an exact `LinCount`, `COUNT` answers the spec's response (42_count.md R160). -/
theorem countCommand_eq_response {P : Params} {s : State} (hden : 0 < P.alphaDen) (hlin : P.LinCountExact) (hv : s.v = true)
    (hinv : Safety.Inv P s) : countCommand P s = respond (Reference.response P s) s := by
  obtain ⟨⟨hprec, -⟩, ⟨hm, -⟩, -⟩ := hinv
  obtain ⟨hmin, hmax⟩ := hprec hv
  rw [countCommand_of_estimator P hv, estimate_eq_floor hden hlin hm hmin hmax, countResponse_eq_responseOf, Reference.response]

/-! ### Linear counting, up to the error of the fixed-point logarithm -/

theorem linCount_eq_floor (m c : Nat) : linCount m c = ⌊(m : ℝ) * lnScaled m c / 2 ^ lnBits⌋₊ := by
  rw [linCount, ← Nat.floor_div_eq_div (K := ℝ), Nat.cast_mul, Nat.cast_pow, Nat.cast_ofNat]

/-- Linear counting is never too large (assumption log entry 11). -/
theorem linCount_le {m c : Nat} (hc : 1 ≤ c) (hcm : c ≤ m) : (linCount m c : ℝ) ≤ m * Real.log ((m : ℝ) / c) := by
  have hunit : (0 : ℝ) < 2 ^ lnBits := by positivity
  have hscaled := mul_le_mul_of_nonneg_left (lnScaled_le hc hcm) (Nat.cast_nonneg m)
  have hnonneg : (0 : ℝ) ≤ m * lnScaled m c := mul_nonneg (Nat.cast_nonneg _) (Nat.cast_nonneg _)
  rw [linCount_eq_floor]
  refine (Nat.floor_le (div_nonneg hnonneg hunit.le)).trans ?_
  rw [div_le_iff₀ hunit]
  linarith

/-- A ratio of at most `2^63` has at most 63 halvings. -/
theorem log2_ratio_le {m c : Nat} (hm : m ≤ 2 ^ 63) : Nat.log2 (m / c) ≤ 63 := by
  rw [Nat.log2_eq_log_two]
  exact (Nat.log_mono_right ((Nat.div_le_self m c).trans hm)).trans_eq (Nat.log_pow (by decide) 63)

/-- Linear counting is too small only if its real value lies within `2^(-100)` above an integer (assumption log entry 11):
`m` times the error of the logarithm is below `2^(-100)`. -/
theorem lt_linCount_add {m c : Nat} (hc : 1 ≤ c) (hcm : c ≤ m) (hm : m ≤ 2 ^ 63) :
    (m : ℝ) * Real.log ((m : ℝ) / c) < linCount m c + 1 + 1 / 2 ^ 100 := by
  have hfloor : (m * lnScaled m c : ℝ) < (linCount m c + 1) * 2 ^ lnBits := by
    rw [← div_lt_iff₀ (by positivity), linCount_eq_floor]
    exact Nat.lt_floor_add_one _
  have hm' : (m : ℝ) ≤ 2 ^ 63 := by exact_mod_cast hm
  have hhalvings : (Nat.log2 (m / c) : ℝ) ≤ 63 := by exact_mod_cast log2_ratio_le hm
  have herror : (m : ℝ) * ((Nat.log2 (m / c) + 1) * (lnTerms + 1)) ≤ 2 ^ 63 * (64 * 65) := by
    rw [lnTerms]
    gcongr
    · linarith
    · norm_num
  have hscaled := mul_le_mul_of_nonneg_left (lnScaled_error hc hcm) (Nat.cast_nonneg m)
  rw [lnBits] at hfloor hscaled
  linarith

/-- With no register hit, linear counting gives 0 (42_count.md R167). -/
theorem linCount_self {m : Nat} (hm : 1 ≤ m) : linCount m m = 0 := by
  have hle := linCount_le hm le_rfl
  rw [div_self (by positivity), Real.log_one, mul_zero] at hle
  exact_mod_cast hle.antisymm (Nat.cast_nonneg _)

/-- The estimate of an estimator with every register 0: `T = m * 2^127` is in the small range and `c = m` (42_count.md R177). -/
theorem estimate_cleared {m : Nat} (hm : 1 ≤ m) : estimate Config.params m Memory.cleared = 0 := by
  have hT : scaledSum m Memory.cleared = m * 2 ^ 127 := by simp [scaledSum, Memory.within, Memory.cleared]
  have hc : zeroCount m Memory.cleared = m := by simp [zeroCount, Memory.within, Memory.cleared]
  have hsmall : smallRange Config.params m (m * 2 ^ 127) = true := by
    rw [smallRange, decide_eq_true_iff, ← mul_assoc]
    exact Nat.mul_le_mul_right _ (Nat.mul_le_mul_right m (by decide))
  rw [estimate, hT, hc, hsmall, Bool.true_and, if_pos (bne_iff_ne.mpr (Nat.ne_of_gt hm))]
  exact linCount_self hm

/-- `COUNT` of an estimator with every register 0 answers 0 (42_count.md R177). -/
theorem countCommand_of_cleared {s : State} (hv : s.v = true) (hm : s.m = Memory.cleared) :
    countCommand Config.params s = respond 0x000000000000000000#72 s := by
  have hzero : countResponse 0 = 0x000000000000000000#72 := by decide
  rw [countCommand_of_estimator _ hv, hm, registerCount_eq_registers, estimate_cleared (registers_pos s), hzero]

/-- Settles O25: `NEW` leaves an estimator with the cleared array, whose estimate is 0. -/
theorem freshEstimatorCountsZero : Obligations.FreshEstimatorCountsZero := by
  intro p s h4 h16
  refine ⟨_, exec_new p s, ?_⟩
  rw [newCommand_of_inRange (P := Config.params) ⟨h4, h16⟩, exec_count, countCommand_of_cleared rfl rfl]
  rfl

/-! ### Linear counting is never just above an integer (42_count.md R176)

The fixed-point logarithm gives the exact floor because no `m * ln(m / c)` is within its error above an integer. No theorem
says so: it is a fact about the numbers `2^16 * ln(2^16 / c)` for `c < 2^16`, one by one (R176 computes their margins), and every
smaller precision has some of these numbers, divided by a power of two. `logsClear` computes a lower approximation of each in
whole numbers: from `c = 2^16` down to `2^15` in steps of 1, each with a simple bound on its logarithm, and below `2^15` by
halvings of those. The lemmas up to `clearAbove_of_logsClear` say what its answer means; `logsClear_all` is the one
computation. -/

/-- `a` is below `2^64 * ln(2^16 / c)` by at most `e`. -/
def ApproximatesLog (c a e : Nat) : Prop :=
  (a : ℝ) ≤ 2 ^ 64 * Real.log (2 ^ 16 / c) ∧ 2 ^ 64 * Real.log (2 ^ 16 / c) ≤ a + e

/-- What one step down to `c` adds to the approximation: `2^64` times the lower bound `2 / (2c + 1)` of `ln((c + 1) / c)`. -/
def logStep (c : Nat) : Nat := 2 ^ 65 / (2 * c + 1)

/-- The floor of `2^64 * ln 2`, which one halving adds. -/
def logTwo : Nat := 12786308645202655659

/-- The most by which an approximation can be short: `2^15` steps by `2^17 + 1` each, and 15 halvings by 1 each. -/
def logSlack : Nat := 2 ^ 15 * (2 ^ 17 + 1) + 15

/-- No multiple of `2^48`, which stands for an integer value of `2^16 * ln(2^16 / c)`, lies from `a` to `a + logSlack`. -/
def clearOfInteger (a : Nat) : Bool := Nat.blt logSlack ((a + logSlack) % 2 ^ 48)

/-- The numbers for `c` and for its halves, as long as these are whole, are clear of the integers, where `a` approximates the one
for `c`. The first argument bounds the halvings. -/
def halvingsClear : Nat → Nat → Nat → Bool
  | 0, _, _ => true
  | k + 1, c, a => clearOfInteger a && (Nat.beq (c % 2) 1 || halvingsClear k (c / 2) (a + logTwo))

/-- The numbers for the `n` counts from `base + n - 1` down to `base`, and for their halves, are clear of the integers, where `a`
approximates the one for `base + n`. -/
def logsClear (base : Nat) : Nat → Nat → Bool
  | 0, _ => true
  | n + 1, a => halvingsClear 16 (base + n) (a + logStep (base + n)) && logsClear base n (a + logStep (base + n))

/-- The 65535 numbers of R176, evaluated by the kernel. -/
theorem logsClear_all : logsClear (2 ^ 15) (2 ^ 15) 0 = true := by decide +kernel

namespace ApproximatesLog

theorem top : ApproximatesLog (2 ^ 16) 0 0 := by
  rw [ApproximatesLog, Nat.cast_pow, Nat.cast_two, div_self (by positivity), Real.log_one]
  simp

theorem mono {c a e e' : Nat} (h : ApproximatesLog c a e) (he : e ≤ e') : ApproximatesLog c a e' := by
  have hcast : (e : ℝ) ≤ e' := by exact_mod_cast he
  exact ⟨h.1, h.2.trans (by linarith)⟩

end ApproximatesLog

/-- `ln x` is at most `(x - 1/x) / 2`, because `sinh t` is at least `t`. -/
theorem log_le_half_sub_inv {x : ℝ} (hx : 1 ≤ x) : Real.log x ≤ (x - x⁻¹) / 2 := by
  rw [← Real.sinh_log (by linarith)]
  exact Real.self_le_sinh_iff.mpr (Real.log_nonneg hx)

/-- One step down from `2^15` or more: the lower bound of its logarithm is short by at most `2^(-47)`. -/
theorem log_step_bounds {c : Nat} (hc : 2 ^ 15 ≤ c) :
    2 / (2 * (c : ℝ) + 1) ≤ Real.log ((c + 1) / c) ∧ Real.log ((c + 1) / c) ≤ 2 / (2 * (c : ℝ) + 1) + 1 / 2 ^ 47 := by
  have hcR : (2 : ℝ) ^ 15 ≤ c := by exact_mod_cast hc
  have hpos : (0 : ℝ) < c := lt_of_lt_of_le (by positivity) hcR
  constructor
  · have hlow := Real.le_log_one_add_of_nonneg (x := 1 / (c : ℝ)) (by positivity)
    convert hlow using 1
    · field_simp
      ring
    · congr 1
      field_simp
  · have hhigh := log_le_half_sub_inv (x := ((c : ℝ) + 1) / c) (by rw [le_div_iff₀ hpos]; linarith)
    have hexcess : (((c : ℝ) + 1) / c - (((c : ℝ) + 1) / c)⁻¹) / 2 =
        2 / (2 * (c : ℝ) + 1) + 1 / (2 * c * (c + 1) * (2 * c + 1)) := by
      field_simp
      ring
    have hcube : (2 : ℝ) ^ 47 ≤ 2 * c * (c + 1) * (2 * c + 1) := by
      calc (2 : ℝ) ^ 47 = 2 * 2 ^ 15 * 2 ^ 15 * (2 * 2 ^ 15) := by norm_num
        _ ≤ 2 * c * (c + 1) * (2 * c + 1 : ℝ) := by gcongr <;> linarith
    rw [hexcess] at hhigh
    exact hhigh.trans (by gcongr)

/-- The rounded step is short by less than 1 and what `log_step_bounds` allows. -/
theorem logStep_bounds {c : Nat} (hc : 2 ^ 15 ≤ c) :
    (logStep c : ℝ) ≤ 2 ^ 64 * Real.log ((c + 1) / c) ∧
    2 ^ 64 * Real.log ((c + 1) / c) ≤ logStep c + (2 ^ 17 + 1) := by
  obtain ⟨hlow, hhigh⟩ := log_step_bounds hc
  have hscale : (2 : ℝ) ^ 65 / (2 * c + 1) = 2 ^ 64 * (2 / (2 * c + 1)) := by ring
  have hfloor : logStep c = ⌊(2 : ℝ) ^ 65 / (2 * c + 1)⌋₊ := by
    rw [logStep, ← Nat.floor_div_eq_div (K := ℝ)]
    simp only [Nat.cast_add, Nat.cast_mul, Nat.cast_pow, Nat.cast_ofNat, Nat.cast_one]
  have hfloor_le : (logStep c : ℝ) ≤ 2 ^ 65 / (2 * c + 1) := hfloor ▸ Nat.floor_le (by positivity)
  have hlt_floor : (2 : ℝ) ^ 65 / (2 * c + 1) < logStep c + 1 := hfloor ▸ Nat.lt_floor_add_one _
  rw [hscale] at hfloor_le hlt_floor
  constructor <;> linarith

/-- The machine's own logarithm of 2 gives `logTwo`. -/
theorem logTwo_bounds : (logTwo : ℝ) ≤ 2 ^ 64 * Real.log 2 ∧ 2 ^ 64 * Real.log 2 ≤ logTwo + 1 := by
  have hlow : 2 ^ 128 * logTwo ≤ lnRatio 2 1 := by decide +kernel
  have hhigh : lnRatio 2 1 + (lnTerms + 1) ≤ 2 ^ 128 * (logTwo + 1) := by decide +kernel
  have hlog := lnRatio_le (a := 2) (b := 1) (by norm_num) (by norm_num)
  have hlog' := lnRatio_error (a := 2) (b := 1) (by norm_num) (by norm_num) (by norm_num)
  have hlowR : (2 : ℝ) ^ 128 * logTwo ≤ lnRatio 2 1 := by exact_mod_cast hlow
  have hhighR : (lnRatio 2 1 : ℝ) + (lnTerms + 1) ≤ 2 ^ 128 * (logTwo + 1) := by exact_mod_cast hhigh
  rw [lnBits, Nat.cast_ofNat, Nat.cast_one, div_one] at hlog hlog'
  constructor <;> linarith

namespace ApproximatesLog

theorem step_down {c a e : Nat} (hc : 2 ^ 15 ≤ c) (h : ApproximatesLog (c + 1) a e) :
    ApproximatesLog c (a + logStep c) (e + (2 ^ 17 + 1)) := by
  obtain ⟨hlow, hhigh⟩ := h
  obtain ⟨hstep, hstep'⟩ := logStep_bounds hc
  have hpos : (c : ℝ) ≠ 0 := by have : 0 < c := by omega
                                positivity
  have hlog : Real.log (2 ^ 16 / c) = Real.log (2 ^ 16 / ((c + 1 : ℕ) : ℝ)) + Real.log ((c + 1) / c) := by
    rw [← Real.log_mul (by positivity) (by positivity)]
    congr 1
    push_cast
    field_simp
  rw [ApproximatesLog, hlog]
  push_cast at hlow hhigh ⊢
  constructor <;> linarith

theorem halve {c a e : Nat} (hc : 0 < c) (h : ApproximatesLog (2 * c) a e) : ApproximatesLog c (a + logTwo) (e + 1) := by
  obtain ⟨hlow, hhigh⟩ := h
  obtain ⟨htwo, htwo'⟩ := logTwo_bounds
  have hlog : Real.log (2 ^ 16 / c) = Real.log (2 ^ 16 / ((2 * c : ℕ) : ℝ)) + Real.log 2 := by
    rw [← Real.log_mul (by positivity) (by positivity)]
    congr 1
    push_cast
    field_simp
  rw [ApproximatesLog, hlog]
  push_cast at hlow hhigh ⊢
  constructor <;> linarith

end ApproximatesLog

/-- `x` is never less than `d` above a natural number. -/
def ClearAbove (d x : ℝ) : Prop := ∀ n : Nat, (n : ℝ) ≤ x → n + d ≤ x

/-- A multiple of `u` up to `a + e` is below `a`, when the remainder of `a + e` is more than `e`. -/
theorem mul_lt_of_le_add {n u a e : Nat} (hu : 0 < u) (hclear : e < (a + e) % u) (h : n * u ≤ a + e) : n * u < a := by
  have hquot := Nat.mul_le_mul_right u ((Nat.le_div_iff_mul_le hu).mpr h)
  have hdiv := Nat.div_add_mod' (a + e) u
  omega

/-- The number that a clear approximation stands for is at least one unit above the integer below. -/
theorem clearAbove_of_clearOfInteger {c a : Nat} (hclear : clearOfInteger a = true) (ha : ApproximatesLog c a logSlack) :
    ClearAbove (1 / 2 ^ 48) (2 ^ 16 * Real.log (2 ^ 16 / c)) := by
  intro n hn
  obtain ⟨hlow, hhigh⟩ := ha
  rw [clearOfInteger, Nat.blt_eq] at hclear
  have hbelow : n * 2 ^ 48 ≤ a + logSlack := by
    rw [← Nat.cast_le (α := ℝ)]
    simp only [Nat.cast_add, Nat.cast_mul, Nat.cast_pow, Nat.cast_ofNat]
    linarith
  have habove : n * 2 ^ 48 + 1 ≤ a := mul_lt_of_le_add (by decide) hclear hbelow
  rw [← Nat.cast_le (α := ℝ)] at habove
  simp only [Nat.cast_add, Nat.cast_mul, Nat.cast_pow, Nat.cast_ofNat, Nat.cast_one] at habove
  linarith

/-- Every half within the bound has been looked at. -/
theorem clearAbove_of_halvingsClear {k c a e : Nat} (hclear : halvingsClear k c a = true) (ha : ApproximatesLog c a e)
    (he : e + k ≤ logSlack + 1) {b j : Nat} (hb : 0 < b) (hj : j < k) (hc : c = b * 2 ^ j) :
    ClearAbove (1 / 2 ^ 48) (2 ^ 16 * Real.log (2 ^ 16 / b)) := by
  induction k generalizing c a e j with
  | zero => omega
  | succ k ih =>
    simp only [halvingsClear, Bool.and_eq_true, Bool.or_eq_true, Nat.beq_eq] at hclear
    obtain ⟨hfirst, hrest⟩ := hclear
    cases j with
    | zero =>
      rw [pow_zero, mul_one] at hc
      exact clearAbove_of_clearOfInteger hfirst (hc ▸ ha.mono (by omega))
    | succ j =>
      have hdouble : c = 2 * (b * 2 ^ j) := by rw [hc, pow_succ]; ring
      have hhalf : c / 2 = b * 2 ^ j := by omega
      rw [hhalf] at hrest
      exact ih (hrest.resolve_left (by omega)) ((hdouble ▸ ha).halve (by positivity)) (by omega) (by omega) rfl

/-- Every count of the walk, and every half of one, has been looked at. -/
theorem clearAbove_of_logsClear {base n a e : Nat} (hbase : 2 ^ 15 ≤ base) (hclear : logsClear base n a = true)
    (ha : ApproximatesLog (base + n) a e) (he : e + n * (2 ^ 17 + 1) ≤ 2 ^ 15 * (2 ^ 17 + 1)) {b i j : Nat} (hb : 0 < b)
    (hj : j < 16) (hi : i < n) (hbj : base + i = b * 2 ^ j) :
    ClearAbove (1 / 2 ^ 48) (2 ^ 16 * Real.log (2 ^ 16 / b)) := by
  induction n generalizing a e with
  | zero => omega
  | succ n ih =>
    simp only [logsClear, Bool.and_eq_true] at hclear
    obtain ⟨hfirst, hrest⟩ := hclear
    have hstep := ha.step_down (c := base + n) (by omega)
    by_cases hin : i = n
    · subst hin
      exact clearAbove_of_halvingsClear hfirst hstep (by rw [logSlack]; omega) hb hj hbj
    · exact ih hrest hstep (by omega) (by omega)

/-- For the largest precision: halvings bring every `c` to between `2^15` and `2^16`. -/
theorem clearAbove_linear_max {c : Nat} (hc : 1 ≤ c) (hlt : c < 2 ^ 16) :
    ClearAbove (1 / 2 ^ 48) (2 ^ 16 * Real.log (2 ^ 16 / c)) := by
  obtain ⟨hle, hge⟩ := halvings_bounds (m := 2 ^ 16 - 1) hc (by omega)
  have hj : Nat.log2 ((2 ^ 16 - 1) / c) < 16 := by
    rw [Nat.log2_lt (Nat.ne_of_gt (Nat.div_pos (by omega) hc))]
    exact (Nat.div_le_self _ _).trans_lt (by decide)
  have htop : ApproximatesLog (2 ^ 15 + 2 ^ 15) 0 0 := by rw [← two_mul, ← pow_succ']; exact .top
  obtain ⟨i, hi⟩ := Nat.exists_eq_add_of_le (show 2 ^ 15 ≤ c * 2 ^ Nat.log2 ((2 ^ 16 - 1) / c) by omega)
  exact clearAbove_of_logsClear le_rfl logsClear_all htop (by omega) hc hj (by omega) hi.symm

/-- A smaller precision divides the number of the largest one by a power of two. -/
theorem clearAbove_linear {p c : Nat} (hp : p ≤ 16) (hc : 1 ≤ c) (hlt : c < 2 ^ p) :
    ClearAbove (1 / 2 ^ 64) (2 ^ p * Real.log (2 ^ p / c)) := by
  intro n hn
  obtain ⟨k, hk⟩ := Nat.exists_eq_add_of_le hp
  have hscale : (2 : ℝ) ^ 16 * Real.log (2 ^ 16 / ((c * 2 ^ k : ℕ) : ℝ)) = 2 ^ k * (2 ^ p * Real.log (2 ^ p / c)) := by
    rw [hk, pow_add, Nat.cast_mul, Nat.cast_pow, Nat.cast_ofNat, mul_div_mul_right _ _ (by positivity)]
    ring
  have hmax := clearAbove_linear_max (c := c * 2 ^ k) (Nat.mul_pos hc (Nat.two_pow_pos k))
    (by rw [hk, pow_add]; exact Nat.mul_lt_mul_of_pos_right hlt (by positivity)) (n * 2 ^ k)
  rw [hscale, Nat.cast_mul, Nat.cast_pow, Nat.cast_ofNat, mul_comm (n : ℝ)] at hmax
  have hgap := hmax (mul_le_mul_of_nonneg_left hn (by positivity))
  have hk16 : (2 : ℝ) ^ k ≤ 2 ^ 16 := pow_le_pow_right₀ one_le_two (by omega)
  have hsmall : (2 : ℝ) ^ k * (1 / 2 ^ 64) ≤ 1 / 2 ^ 48 := by linarith
  rw [← mul_le_mul_iff_right₀ (show (0 : ℝ) < 2 ^ k by positivity), mul_add]
  linarith

/-! ### The exact estimate -/

/-- `Machine.linCount` has the property of R176 at the default parameters: it falls short by less than the distance of linear
counting from the integer below. -/
theorem linCountExact_default : Config.params.LinCountExact := by
  intro p c _ hp16 hc hcm
  change p ≤ 16 at hp16
  have hm : 2 ^ p ≤ 2 ^ 63 := Nat.pow_le_pow_right (by decide) (by omega)
  have hle := linCount_le hc hcm
  have hshort := lt_linCount_add hc hcm hm
  refine ((Nat.floor_eq_iff ((Nat.cast_nonneg _).trans hle)).mpr ⟨hle, ?_⟩).symm
  rcases hcm.eq_or_lt with rfl | hlt
  · rw [div_self (by positivity), Real.log_one, mul_zero]
    positivity
  · by_contra! hge
    have hclear := clearAbove_linear hp16 hc hlt (linCount (2 ^ p) c + 1)
    simp only [Nat.cast_add, Nat.cast_pow, Nat.cast_ofNat, Nat.cast_one] at hge hshort hclear
    have hgap := hclear hge
    linarith

/-- Settles O17: a legal state has a canonical array and a precision at which `LinCount` is exact. -/
theorem countAnswersTheExactEstimate : Obligations.CountAnswersTheExactEstimate := by
  intro s hinv hv
  rw [exec_count, countCommand_eq_response (by decide) linCountExact_default hv hinv, respond]

end Sys2Proof.Machine

/-! ## Taking an error (60_exceptions.md R208)

A command either answers with the code of success or raises one error, and an error is nothing but its response. -/

namespace Sys2Proof.Machine

theorem errorResponse_illegalCommand_eq : errorResponse .illegalCommand = 0x020000000000000000#72 := by decide

/-- What makes a command raise `e`: the word's decoding, and for `NoEstimator` the state that accepts the word
(60_exceptions.md R201 to R203). -/
def RaisedBy (P : Params) (s : State) (d : Except DecodeError Instr) : ErrorCode → Prop
  | .invalidPrecision => ∃ p, d = .ok (.new p) ∧ acceptsPrecision P p = false
  | .illegalCommand => ∃ why, d = .error why
  | .noEstimator => s.v = false ∧ (d = .ok .count ∨ ∃ x, d = .ok (.add x))

/-- An accepted word is answered with the code of success, or raises an error and does nothing else. -/
theorem acceptEvent_command_succeeds_or_raises {P : Params} {w : CmdWord} {s t : State}
    (h : acceptEvent (execWith P) (.command w) s = .next t) :
    (∃ r, Answers s t r ∧ r.extractLsb' 64 4 = 0#4) ∨ ∃ e, t = raiseError e s ∧ RaisedBy P s (decode w) e := by
  rcases acceptEvent_cases h with ⟨_, p, ⟨⟩, hd, rfl⟩ | ⟨_, x, ⟨⟩, hd, rfl⟩ | ⟨_, ⟨⟩, hd, rfl⟩ | ⟨_, why, ⟨⟩, hd, rfl⟩ |
    ⟨⟨⟩, -⟩ | ⟨⟨⟩, -⟩ <;> rw [hd]
  · rcases newCommand_cases P p s with ⟨-, h⟩ | ⟨hp, h⟩
    · exact .inl ⟨okResponse, by rw [h]; exact ⟨rfl, rfl⟩, by decide⟩
    · exact .inr ⟨_, h, p, rfl, hp⟩
  · rcases addCommand_cases P x s with ⟨-, h⟩ | ⟨hv, h⟩
    · exact .inl ⟨okResponse, by rw [h]; exact ⟨rfl, rfl⟩, by decide⟩
    · exact .inr ⟨_, h, hv, .inr ⟨x, rfl⟩⟩
  · rcases countCommand_cases P s with ⟨-, h⟩ | ⟨hv, h⟩
    · exact .inl ⟨_, by rw [h]; exact ⟨rfl, rfl⟩, countResponse_code _⟩
    · exact .inr ⟨_, h, hv, .inl rfl⟩
  · exact .inr ⟨_, rfl, why, rfl⟩

/-- Settles O40: a code other than 0 leaves only the raising outcome, whose one response is the error's. -/
theorem errorsWriteNoState : Obligations.ErrorsWriteNoState := by
  intro s t w rest r hcons hstep hr hcode
  rw [step_eq_stepWith, stepWith_cons _ hcons] at hstep
  rcases acceptEvent_command_succeeds_or_raises hstep with ⟨r', ⟨hpending, -⟩, hzero⟩ | ⟨e, rfl, hraised⟩
  · obtain rfl : r = r' := by simpa using hr.symm.trans hpending
    exact absurd hzero hcode
  · obtain rfl : errorResponse e = r := by simpa using hr
    refine ⟨rfl, ?_⟩
    cases e with
    | invalidPrecision =>
      obtain ⟨p, hd, hp⟩ := hraised
      exact .inl ⟨errorResponse_invalidPrecision_eq, p, hd, (acceptsPrecision_default_eq_false p).mp hp⟩
    | illegalCommand => exact .inr (.inl ⟨errorResponse_illegalCommand_eq, hraised⟩)
    | noEstimator => exact .inr (.inr ⟨errorResponse_noEstimator_eq, hraised⟩)

end Sys2Proof.Machine

/-! ## Decode and encode (30_encoding.md R83 to R87, R95)

An instruction and a legal command word carry the same two fields, an opcode and an operand; only `NEW` reads its operand as
a number, and there `sint64` and the two's-complement encoding are inverse to each other. -/

namespace Sys2Proof

/-! ### The operand of `NEW` -/

/-- `sint64` is the library's two's-complement value (30_encoding.md R87). -/
theorem sint64_eq_toInt (x : Word64) : sint64 x = x.toInt := by
  rw [sint64, BitVec.toInt_eq_msb_cond, BitVec.msb_eq_getLsbD_last, Nat.cast_pow, Nat.cast_ofNat]

theorem ofInt_sint64 (x : Word64) : BitVec.ofInt 64 (sint64 x) = x := by
  rw [sint64_eq_toInt, BitVec.ofInt_toInt]

theorem sint64_bounds (x : Word64) : -2 ^ 63 ≤ sint64 x ∧ sint64 x < 2 ^ 63 := by
  rw [sint64_eq_toInt]
  exact ⟨BitVec.le_toInt x, BitVec.toInt_lt⟩

/-- A precision that fits the operand field is read back from it. -/
theorem sint64_ofInt {p : Int} (hlow : -2 ^ 63 ≤ p) (hhigh : p < 2 ^ 63) : sint64 (BitVec.ofInt 64 p) = p := by
  rw [sint64_eq_toInt]
  exact BitVec.toInt_ofInt_eq_self (by decide) hlow hhigh

theorem wellFormed_new_iff (p : Int) : (Instr.new p).wellFormed = true ↔ -2 ^ 63 ≤ p ∧ p < 2 ^ 63 := by
  rw [Instr.wellFormed, Bool.and_eq_true, decide_eq_true_iff, decide_eq_true_iff]

/-! ### The decoder on a word put together from its fields -/

theorem decode_opcodeNew (x : Word64) : decode (commandWord opcodeNew x) = .ok (.new (sint64 x)) := by
  rw [decode, opcodeField_commandWord, operandField_commandWord, if_pos rfl]

theorem decode_opcodeAdd (x : Word64) : decode (commandWord opcodeAdd x) = .ok (.add x) := by
  rw [decode, opcodeField_commandWord, operandField_commandWord, if_neg (by decide), if_pos rfl]

theorem decode_opcodeCount : decode (commandWord opcodeCount 0#64) = .ok .count := by
  rw [decode, opcodeField_commandWord, operandField_commandWord, if_neg (by decide), if_neg (by decide), if_pos rfl,
    if_pos rfl]

/-- Every well-formed instruction is read back from its word. -/
theorem decode_encode {i : Instr} (hi : i.wellFormed = true) : decode (encode i) = .ok i := by
  cases i with
  | new p =>
    obtain ⟨hlow, hhigh⟩ := (wellFormed_new_iff p).mp hi
    rw [encode, decode_opcodeNew, sint64_ofInt hlow hhigh]
  | add x => exact decode_opcodeAdd x
  | count => exact decode_opcodeCount

/-- Settles O29: the operand of `NEW` is read back by `sint64_ofInt`, the other operands as they are. -/
theorem decodeOfEncode : Obligations.DecodeOfEncode := fun _ hi => decode_encode hi

/-- Settles O30: a word is put together again from its fields, and the fields are what the instruction carries. -/
theorem encodeOfDecode : Obligations.EncodeOfDecode := by
  intro w i hi
  have hw := commandWord_fields w
  rcases decode_cases w with ⟨hop, hd⟩ | ⟨hop, hd⟩ | ⟨hop, harg, hd⟩ | ⟨-, -, hd⟩ | ⟨-, -, -, hd⟩ <;> rw [hd] at hi <;> cases hi
  · exact ⟨(wellFormed_new_iff _).mpr (sint64_bounds _), by rw [encode, ofInt_sint64, ← hop, hw]⟩
  · exact ⟨rfl, by rw [encode, ← hop, hw]⟩
  · exact ⟨rfl, by rw [encode, ← hop, ← harg, hw]⟩

/-- Settles O34: the four words are the encodings of the four commands. -/
theorem wordsDecodeAsTheSpecWritesThem : Obligations.WordsDecodeAsTheSpecWritesThem := by
  have hnew : encode (.new 16) = 0x010000000000000010#72 := by decide
  have hneg : encode (.new (-1)) = 0x01FFFFFFFFFFFFFFFF#72 := by decide
  have hadd : encode (.add 0x7C5F1E7EC483E214#64) = 0x027C5F1E7EC483E214#72 := by decide
  have hcount : encode .count = 0x030000000000000000#72 := by decide
  unfold Obligations.WordsDecodeAsTheSpecWritesThem
  rw [← hnew, ← hneg, ← hadd, ← hcount]
  exact ⟨decode_encode (by decide), decode_encode (by decide), decode_encode rfl, decode_encode rfl⟩

end Sys2Proof

/-! ## The assembler (30_encoding.md R97, R98)

A line is cut into its first word and the rest, and the operand is read from the rest without its comment and blanks. The
lemmas say what the cutting and the numerals do on the characters of a listing; then each statement is one line's path
through `parseLine`. -/

namespace Sys2Proof.Machine

/-! ### Commands -/

theorem wellFormed_of_commandInRange {i j : Instr} (h : commandInRange j = some (.command i)) : i.wellFormed = true := by
  rw [commandInRange] at h
  split_ifs at h with hj
  cases h
  exact hj

/-- A line gives a command only when its operand is in range. -/
theorem wellFormed_of_parseOperand {mnemonic rest : List Char} {i : Instr}
    (h : parseOperand mnemonic rest = some (.command i)) : i.wellFormed = true := by
  simp only [parseOperand] at h
  split_ifs at h
  · obtain ⟨p, -, hnew⟩ := Option.bind_eq_some_iff.mp h
    exact wellFormed_of_commandInRange hnew
  · obtain ⟨n, -, hadd⟩ := Option.bind_eq_some_iff.mp h
    split_ifs at hadd
    exact wellFormed_of_commandInRange hadd
  · exact wellFormed_of_commandInRange h
  · obtain ⟨_, -, ⟨⟩⟩ := Option.map_eq_some_iff.mp h
  · obtain ⟨_, -, ⟨⟩⟩ := Option.map_eq_some_iff.mp h
  · cases h

/-- Settles O54: the parser lets through well-formed commands only, and these are read back from their words. -/
theorem assembledCommandsAreLegal : Obligations.AssembledCommandsAreLegal := fun _ i h =>
  ⟨encode i, rfl, decode_encode (wellFormed_of_parseOperand h)⟩

/-! ### Hexadecimal numerals -/

@[simp] theorem hexDigits_length (k n : Nat) : (hexDigits k n).length = k := by
  induction k generalizing n with
  | zero => rfl
  | succ k ih => rw [hexDigits, List.length_append, ih, List.length_singleton]

/-- Every character of a hexadecimal numeral is a digit's. -/
theorem eq_hexDigit_of_mem_hexDigits {k n : Nat} {c : Char} (h : c ∈ hexDigits k n) : ∃ d < 16, c = hexDigit d := by
  induction k generalizing n with
  | zero => simp [hexDigits] at h
  | succ k ih =>
    rcases List.mem_append.mp h with h | h
    · exact ih h
    · exact ⟨n % 16, Nat.mod_lt _ (by decide), List.mem_singleton.mp h⟩

theorem digitValue_hexDigit : ∀ d < 16, digitValue (hexDigit d) = some d := by decide

theorem isBlank_hexDigit : ∀ d < 16, isBlank (hexDigit d) = false := by decide

theorem hexDigit_ne_semicolon : ∀ d < 16, hexDigit d ≠ ';' := by decide

theorem hexDigit_ne_underscore : ∀ d < 16, hexDigit d ≠ '_' := by decide

/-- The most significant digits come first, so the digits of two numerals in a row are those of one number. -/
theorem hexDigits_append (j k n : Nat) : hexDigits j (n / 16 ^ k) ++ hexDigits k n = hexDigits (j + k) n := by
  induction k generalizing n with
  | zero => simp [hexDigits]
  | succ k ih =>
    have hdiv : n / 16 ^ (k + 1) = n / 16 / 16 ^ k := by rw [Nat.div_div_eq_div_mul, ← pow_succ']
    rw [hexDigits, hdiv, ← List.append_assoc, ih, ← Nat.add_assoc, hexDigits]

/-- A numeral of `k` digits shows a number modulo `16^k`. -/
theorem hexDigits_mod (k n : Nat) : hexDigits k (n % 16 ^ k) = hexDigits k n := by
  induction k generalizing n with
  | zero => rfl
  | succ k ih =>
    have hlast : n % 16 ^ (k + 1) % 16 = n % 16 := Nat.mod_mod_of_dvd n (dvd_pow_self 16 k.succ_ne_zero)
    have hfirst : n % 16 ^ (k + 1) / 16 = n / 16 % 16 ^ k := by rw [pow_succ', Nat.mod_mul_right_div_self]
    rw [hexDigits, hlast, hfirst, ih, hexDigits]

/-- Reading a hexadecimal numeral appends its digits to what was read before. -/
theorem digitsValue_hexDigits_append (k n acc : Nat) (afterDigit : Bool) (rest : List Char) :
    digitsValue 16 acc afterDigit (hexDigits k n ++ rest) =
      digitsValue 16 (acc * 16 ^ k + n % 16 ^ k) (afterDigit || k != 0) rest := by
  induction k generalizing n rest with
  | zero => simp [hexDigits, Nat.mod_one]
  | succ k ih =>
    have hlt : n % 16 < 16 := Nat.mod_lt _ (by decide)
    have hvalue : (acc * 16 ^ k + n / 16 % 16 ^ k) * 16 + n % 16 = acc * 16 ^ (k + 1) + n % 16 ^ (k + 1) := by
      rw [pow_succ', Nat.mod_mul]
      ring
    rw [hexDigits, List.append_assoc, ih, List.singleton_append, digitsValue, if_neg (hexDigit_ne_underscore _ hlt),
      digitValue_hexDigit _ hlt]
    simp [hlt, hvalue]

/-- A hexadecimal numeral of `k` digits has the number's value, if the number fits. -/
theorem hexValue_hexDigits {k n : Nat} (hk : k ≠ 0) (hn : n < 16 ^ k) : hexValue k (hexDigits k n) = some n := by
  have hsep : '_' ∉ hexDigits k n := fun h => by
    obtain ⟨d, hd, hc⟩ := eq_hexDigit_of_mem_hexDigits h
    exact hexDigit_ne_underscore d hd hc.symm
  have hread := digitsValue_hexDigits_append k n 0 false []
  rw [List.append_nil, Nat.zero_mul, Nat.zero_add, Nat.mod_eq_of_lt hn] at hread
  rw [hexValue, if_pos ⟨hexDigits_length k n, hsep⟩, hread]
  simp [digitsValue, hk]

/-! ### The listing -/

/-- Blanks around a text do not matter to its other characters. -/
theorem filter_trimBlanks (cs : List Char) :
    (trimBlanks cs).filter (fun c => !isBlank c) = cs.filter (fun c => !isBlank c) := by
  have hdrop : ∀ ds : List Char, (ds.dropWhile isBlank).filter (fun c => !isBlank c) = ds.filter (fun c => !isBlank c) := by
    intro ds
    induction ds with
    | nil => rfl
    | cons d ds ih => by_cases hd : isBlank d <;> simp [hd, ih]
  rw [trimBlanks, List.filter_reverse, hdrop, List.filter_reverse, hdrop, List.reverse_reverse]

theorem stripComment_eq_self {cs : List Char} (h : ';' ∉ cs) : stripComment cs = cs := by
  rw [stripComment, List.takeWhile_eq_self_iff]
  intro c hc
  simpa using fun heq : c = ';' => h (heq ▸ hc)

theorem semicolon_notMem_hexDigits (k n : Nat) : ';' ∉ hexDigits k n := fun h => by
  obtain ⟨d, hd, hc⟩ := eq_hexDigit_of_mem_hexDigits h
  exact hexDigit_ne_semicolon d hd hc.symm

theorem filter_hexDigits (k n : Nat) : (hexDigits k n).filter (fun c => !isBlank c) = hexDigits k n := by
  rw [List.filter_eq_self]
  intro c hc
  obtain ⟨d, hd, rfl⟩ := eq_hexDigit_of_mem_hexDigits hc
  rw [isBlank_hexDigit d hd, Bool.not_false]

/-- The digits of a listing are those of the whole word. -/
theorem filter_listing (w : CmdWord) : (listing w).filter (fun c => !isBlank c) = hexDigits 18 w.toNat := by
  have hfields : hexDigits 2 (opcodeField w).toNat ++ hexDigits 16 (operandField w).toNat = hexDigits 18 w.toNat := by
    have hop : (opcodeField w).toNat = w.toNat / 16 ^ 16 := toNat_opcodeField w
    have harg : (operandField w).toNat = w.toNat % 16 ^ 16 := toNat_operandField w
    rw [hop, harg, hexDigits_mod, hexDigits_append]
  rw [listing, List.filter_append, List.filter_append, filter_hexDigits, filter_hexDigits, ← hfields]
  rfl

/-- `.word` reads the digits of its operand, whatever blanks stand between them. -/
theorem parseLine_word (cs : List Char) (hcs : ';' ∉ cs) :
    parseLine (['.', 'w', 'o', 'r', 'd', ' '] ++ cs) =
      (hexValue 18 (cs.filter (fun c => !isBlank c))).map (fun n => .word (BitVec.ofNat 72 n)) := by
  have hcut : parseLine (['.', 'w', 'o', 'r', 'd', ' '] ++ cs) = parseOperand ['.', 'w', 'o', 'r', 'd'] (' ' :: cs) := rfl
  have hblank : isBlank ' ' = true := rfl
  rw [hcut]
  simp [parseOperand, filter_trimBlanks, stripComment_eq_self, hcs, hblank]

/-- Settles O55: the listing's digits are those of the word, and its space is a blank between digits. -/
theorem listingAssemblesToItsWord : Obligations.ListingAssemblesToItsWord := by
  intro w
  have hplain : ';' ∉ listing w := by
    simp [listing, semicolon_notMem_hexDigits]
  rw [parseLine_word _ hplain, filter_listing, hexValue_hexDigits (by decide) w.isLt, Option.map_some, BitVec.ofNat_toNat,
    BitVec.setWidth_eq]

/-! ### The pseudo-instruction `adde` -/

/-- The text between two quotes, with nothing behind. -/
theorem quotedText_of_quoted {text : List Char} (h : '"' ∉ text) : quotedText (' ' :: '"' :: text ++ ['"']) = some text := by
  have hnot : ∀ c ∈ text, (c != '"') = true := fun c hc => by simpa using fun heq : c = '"' => h (heq ▸ hc)
  have hskip : (' ' :: '"' :: text ++ ['"']).dropWhile isBlank = '"' :: (text ++ ['"']) := rfl
  have htake : (text ++ ['"']).takeWhile (fun c => c != '"') = text := by
    rw [List.takeWhile_append_of_pos hnot]
    simp
  have hdrop : (text ++ ['"']).dropWhile (fun c => c != '"') = ['"'] := by
    rw [List.dropWhile_append_of_pos hnot]
    rfl
  rw [quotedText, hskip]
  simp only [hdrop, htake]
  rfl

/-- Settles O56: the line is cut at the blank after `adde`, and the quoted text is taken as it stands. -/
theorem addeIsAddOfTheHash : Obligations.AddeIsAddOfTheHash := by
  intro text htext
  have hcut : parseLine (['a', 'd', 'd', 'e', ' ', '"'] ++ text ++ ['"']) =
      parseOperand ['a', 'd', 'd', 'e'] (' ' :: '"' :: text ++ ['"']) := rfl
  refine ⟨.element (textBytes text), ?_, rfl⟩
  rw [hcut, parseOperand, quotedText_of_quoted htext]
  rfl

end Sys2Proof.Machine

/-! ## The invariant (10_state.md R22, R25; 30_encoding.md R89)

A state is legal when its control, its array and its responses are. Every command keeps this, under any admissible
parameters, because a command is one response on top of the old state, of a cleared array, or of one register update; so
every step keeps it too. -/

namespace Sys2Proof.Machine

open Sys2Proof.Safety

/-! ### Every response is legal -/

theorem legalResponse_okResponse : legalResponse okResponse = true := by decide

theorem legalResponse_errorResponse (e : ErrorCode) : legalResponse (errorResponse e) = true := by
  cases e <;> decide

theorem legalResponse_countResponse (n : Nat) : legalResponse (countResponse n) = true := by
  by_cases hsat : 2 ^ 64 - 1 < n
  · rw [countResponse, if_pos hsat]
    decide
  · rw [legalResponse, responseStatus_countResponse, if_neg hsat]
    rfl

/-- The response to a word is one the block can emit (30_encoding.md R89, R90). -/
theorem RespondsTo.legal {P : Params} {s : State} {d : Except DecodeError Instr} {r : RspWord} (h : RespondsTo P s d r) :
    legalResponse r = true := by
  cases h with
  | newAccepted => exact legalResponse_okResponse
  | newRefused => exact legalResponse_errorResponse _
  | added => exact legalResponse_okResponse
  | addWithoutEstimator => exact legalResponse_errorResponse _
  | counted => exact legalResponse_countResponse _
  | countWithoutEstimator => exact legalResponse_errorResponse _
  | illegal => exact legalResponse_errorResponse _

/-! ### What keeps a state legal -/

section Keep
variable {P : Params} {s : State}

theorem inv_reset (P : Params) : Inv P State.reset := by
  refine ⟨⟨fun hv => ?_, fun _ => rfl⟩, ⟨Memory.wf_cleared, fun hv => ?_⟩, rfl, rfl⟩ <;> cases hv

theorem inv_respond {r : RspWord} (hr : legalResponse r = true) (hinv : Inv P s) : Inv P (respond r s) := by
  obtain ⟨hcontrol, harray, hpending, hdelivered⟩ := hinv
  refine ⟨hcontrol, harray, ?_, hdelivered⟩
  rw [respond_rspPending, List.all_append, hpending, List.all_cons, hr]
  rfl

theorem inv_raiseError (e : ErrorCode) (hinv : Inv P s) : Inv P (raiseError e s) :=
  inv_respond (legalResponse_errorResponse e) hinv

/-- A fresh estimator of an accepted precision is legal (40_construction.md R112). -/
theorem inv_freshEstimator {p : Int} (hP : P.Admissible) (hp : acceptsPrecision P p = true) (hinv : Inv P s) :
    Inv P { s with v := true, prec := BitVec.ofNat 6 p.toNat, m := Memory.cleared } := by
  obtain ⟨hmin, -, hmax, -, -⟩ := hP
  obtain ⟨hlow, hhigh⟩ := (acceptsPrecision_iff P p).mp hp
  obtain ⟨-, -, hresponses⟩ := hinv
  have hprec := toNat_precField (p := p) (by omega) (by omega)
  refine ⟨⟨fun _ => ?_, fun hv => ?_⟩, ⟨Memory.wf_cleared, fun _ e he => ?_⟩, hresponses⟩
  · show P.pMin ≤ (BitVec.ofNat 6 p.toNat).toNat ∧ (BitVec.ofNat 6 p.toNat).toNat ≤ P.pMax
    omega
  · cases hv
  · cases he

theorem inv_newCommand (hP : P.Admissible) (p : Int) (hinv : Inv P s) : Inv P (newCommand P p s) := by
  rcases newCommand_cases P p s with ⟨hp, h⟩ | ⟨-, h⟩ <;> rw [h]
  · exact inv_respond legalResponse_okResponse (inv_freshEstimator hP hp hinv)
  · exact inv_raiseError _ hinv

/-- The register update lists the register of the hash, at most at its rank, and what was listed before. -/
theorem mem_addHash {p : Nat} {m : Memory} {x : Word64} {e : Nat × Reg} (he : e ∈ addHash P p m x) :
    (e.1 = hashIndex p x ∧ e.2.toNat ≤ hashRank P p x) ∨ e ∈ m := by
  rw [addHash, updateRegister] at he
  split at he
  · rcases Memory.mem_write he with ⟨rfl, -⟩ | he
    · exact .inl ⟨rfl, by rw [BitVec.toNat_ofNat]; exact Nat.mod_le _ _⟩
    · exact .inr he
  · exact .inr he

theorem inv_addCommand (x : Word64) (hinv : Inv P s) : Inv P (addCommand P x s) := by
  rcases addCommand_cases P x s with ⟨hv, h⟩ | ⟨-, h⟩ <;> rw [h]
  · obtain ⟨hcontrol, ⟨hwf, hlisted⟩, hresponses⟩ := hinv
    refine inv_respond legalResponse_okResponse ⟨hcontrol, ⟨updateRegister_wf hwf _ _, fun _ e he => ?_⟩, hresponses⟩
    rcases mem_addHash he with ⟨hidx, hrank⟩ | he
    · have hlt := hashIndex_lt (p := s.prec.toNat) (by omega) x
      exact ⟨hidx ▸ hlt, hrank.trans (hashRank_le P _ x)⟩
    · exact hlisted hv e he
  · exact inv_raiseError _ hinv

theorem inv_countCommand (hinv : Inv P s) : Inv P (countCommand P s) := by
  rcases countCommand_cases P s with ⟨-, h⟩ | ⟨-, h⟩ <;> rw [h]
  · exact inv_respond (legalResponse_countResponse _) hinv
  · exact inv_raiseError _ hinv

/-- A delivered response was waiting, and so was legal. -/
theorem inv_deliverResponse (hinv : Inv P s) : Inv P (deliverResponse s) := by
  obtain ⟨hcontrol, harray, hpending, hdelivered⟩ := hinv
  unfold deliverResponse
  split
  · exact ⟨hcontrol, harray, hpending, hdelivered⟩
  · next r rest hwaiting =>
    rw [hwaiting, List.all_cons, Bool.and_eq_true] at hpending
    refine ⟨hcontrol, harray, hpending.2, ?_⟩
    rw [List.all_append, hdelivered, List.all_cons, hpending.1]
    rfl

/-- Reset keeps the array, which needs only be canonical while no estimator exists (assumption log entry 5). -/
theorem inv_resetBlock (hinv : Inv P s) : Inv P (resetBlock s) := by
  obtain ⟨-, ⟨hwf, -⟩, -, hdelivered⟩ := hinv
  refine ⟨⟨fun hv => ?_, fun _ => rfl⟩, ⟨hwf, fun hv => ?_⟩, rfl, hdelivered⟩ <;> cases hv

theorem inv_acceptEvent {e : HostEvent} {t : State} (hP : P.Admissible) (hinv : Inv P s)
    (h : acceptEvent (execWith P) e s = .next t) : Inv P t := by
  rcases acceptEvent_cases h with ⟨w, p, -, -, rfl⟩ | ⟨w, x, -, -, rfl⟩ | ⟨w, -, -, rfl⟩ | ⟨w, why, -, -, rfl⟩ | ⟨-, rfl⟩ |
    ⟨-, rfl⟩
  · exact inv_newCommand hP p hinv
  · exact inv_addCommand x hinv
  · exact inv_countCommand hinv
  · exact inv_raiseError _ hinv
  · exact inv_deliverResponse hinv
  · exact inv_resetBlock hinv

theorem inv_stepWith {t : State} (hP : P.Admissible) (hinv : Inv P s) (h : stepWith P s = .next t) : Inv P t := by
  rcases stepWith_cases h with ⟨-, rfl⟩ | ⟨e, rest, -, he⟩
  · exact hinv
  · exact inv_acceptEvent (s := { s with inputs := rest }) hP hinv he

end Keep

theorem admissible_default : Config.params.Admissible := by decide

/-- Settles O59: the step answers by `stepWith_next`, and what it answers is legal. -/
theorem stepKeepsTheInvariantUnderEveryParameterSet : Obligations.StepKeepsTheInvariantUnderEveryParameterSet := by
  refine fun P hP => ⟨inv_reset P, fun s hinv => ?_⟩
  obtain ⟨t, ht⟩ := stepWith_next P s
  exact ⟨t, ht, inv_stepWith hP hinv ht⟩

/-- Settles O46: the step at the default parameters. -/
theorem stepKeepsTheInvariant : Obligations.StepKeepsTheInvariant := by
  intro s t hinv hstep
  rw [step_eq_stepWith] at hstep
  exact inv_stepWith admissible_default hinv hstep

/-- Settles O47: one lemma per command. -/
theorem commandsKeepTheInvariant : Obligations.CommandsKeepTheInvariant := fun _ _ p x hP hinv =>
  ⟨inv_newCommand hP p hinv, inv_addCommand x hinv, inv_countCommand hinv⟩

/-- Settles O48: without an estimator the empty array and the empty lists of responses are legal. -/
theorem resetMeetsTheInvariant : Obligations.ResetMeetsTheInvariant := inv_reset Config.params

/-- Settles O49: the invariant bounds every listed register, and an unlisted one reads 0. -/
theorem registerBoundAndShiftAmounts : Obligations.RegisterBoundAndShiftAmounts := by
  intro P s ⟨hmin, _, hmax, _, _⟩ hstated ⟨⟨hprec, _⟩, ⟨_, hlisted⟩, _⟩ hv
  obtain ⟨hlow, hhigh⟩ := hprec hv
  have hread := fun i => Memory.read_le (fun e he => (hlisted hv e he).2) i
  simp only [rankAllZero, hstated] at hread
  exact ⟨fun i => ⟨hread i, (hread i).trans (by omega)⟩, by omega⟩

/-- Settles O51: the numbers of `Config.params`. -/
theorem defaultParameters : Obligations.DefaultParameters := ⟨admissible_default, rfl, rfl, rfl⟩

end Sys2Proof.Machine

/-! ## The step (20_memory.md R58, R59; 60_exceptions.md; 70_reset_and_hazards.md)

A step is its event on the state with the event taken, so each statement is about one event: a command answers once, a
delivery moves one response, a reset clears the control, and only reset and an accepted `NEW` end a lifetime. -/

namespace Sys2Proof.Machine

open Sys2Proof.Safety

/-! ### The step at each kind of input -/

theorem stepWith_idle (P : Params) {s : State} (h : s.inputs = []) : stepWith P s = .next s := by
  rw [stepWith, stepBy, nextEvent, h]

theorem stepWith_of_decode_ok (P : Params) {s : State} {w : CmdWord} {rest : List HostEvent} {i : Instr}
    (hcons : s.inputs = .command w :: rest) (hd : decode w = .ok i) : stepWith P s = execWith P i { s with inputs := rest } := by
  rw [stepWith_cons P hcons]
  simp only [acceptEvent, acceptCommand, hd]

/-- A step at a command word answers once, with the word's response. -/
theorem stepWith_command_answers {P : Params} {s : State} {w : CmdWord} {rest : List HostEvent}
    (hcons : s.inputs = .command w :: rest) :
    ∃ t r, stepWith P s = .next t ∧ Answers s t r ∧ RespondsTo P { s with inputs := rest } (decode w) r := by
  obtain ⟨t, ht⟩ := stepWith_next P s
  have haccept := ht
  rw [stepWith_cons P hcons] at haccept
  obtain ⟨r, hanswers, hresponds⟩ := acceptEvent_command_responds haccept
  exact ⟨t, r, ht, hanswers, hresponds⟩

/-- Settles O35: `step` and `exec` are the parametric block at the default parameters, where the step is the command. -/
theorem stepRunsTheDecodedInstruction : Obligations.StepRunsTheDecodedInstruction := by
  intro s w rest i hcons hd
  rw [step_eq_stepWith, exec_eq_execWith, stepWith_of_decode_ok _ hcons hd]

/-- Settles O36: the offered word comes first, and taking it leaves the state as it was. -/
theorem stepRunsTheOfferedWord : Obligations.StepRunsTheOfferedWord := by
  intro s nbits w i hi
  have hd : decode (tableWord nbits w) = .ok i := by
    unfold decodeTableWord at hi
    split at hi
    · next j hj => cases hi; exact hj
    · cases hi
  exact stepRunsTheDecodedInstruction _ _ s.inputs i rfl hd

/-- Settles O37: with no event the step is `stepWith_idle`. -/
theorem idleBlockWaits : Obligations.IdleBlockWaits := by
  intro s hidle
  rw [step_eq_stepWith, stepWith_idle _ hidle]

/-- Settles O57: the three equations with the parametric block. -/
theorem instanceIsTheBlockAtItsParameters : Obligations.InstanceIsTheBlockAtItsParameters := fun s =>
  ⟨fun i => congrFun (congrFun exec_eq_execWith i) s, congrFun step_eq_stepWith s, fun n => runSteps_eq_runStepsWith n s⟩

/-- Settles O38: a command's answer is its response, which is legal. -/
theorem everyStepAnswers : Obligations.EveryStepAnswers := by
  refine ⟨fun s => by rw [step_eq_stepWith]; exact stepWith_next _ s, fun s w rest hcons => ?_⟩
  obtain ⟨t, r, ht, ⟨hpending, hdelivered⟩, hresponds⟩ := stepWith_command_answers hcons
  refine ⟨t, r, by rw [step_eq_stepWith, ht], ?_, hpending, hdelivered, hresponds.legal⟩
  rw [stepWith_inputs ht, hcons, List.tail_cons]

/-! ### Legal words -/

/-- The legal words as numbers (30_encoding.md R86). -/
theorem decode_eq_ok_of_toNat {w : CmdWord} (h : w.toNat / 2 ^ 64 = 1 ∨ w.toNat / 2 ^ 64 = 2 ∨ w.toNat = 3 * 2 ^ 64) :
    ∃ i, decode w = .ok i := by
  cases hd : decode w with
  | ok i => exact ⟨i, rfl⟩
  | error why =>
    have hillegal := (decode_eq_error_iff w).mp ⟨why, hd⟩
    simp only [ne_eq, BitVec.toNat_eq, toNat_opcodeField, toNat_operandField, opcodeNew, opcodeAdd, opcodeCount,
      BitVec.toNat_ofNat] at hillegal
    omega

/-- A legal word is answered with a code other than that of `IllegalCommand` (60_exceptions.md R202). -/
theorem RespondsTo.code_ne_two {P : Params} {s : State} {i : Instr} {r : RspWord} (h : RespondsTo P s (.ok i) r) :
    r.extractLsb' 64 4 ≠ 2#4 := by
  cases h with
  | newAccepted => decide
  | newRefused => decide
  | added => decide
  | addWithoutEstimator => decide
  | counted => rw [countResponse_code]; decide
  | countWithoutEstimator => decide

/-- Settles O33: such a word decodes to a command, and no command's response has the code 2. -/
theorem legalWordsNeverAnswerIllegalCommand : Obligations.LegalWordsNeverAnswerIllegalCommand := by
  intro s t w rest hcons hlegal hstep
  obtain ⟨i, hd⟩ := decode_eq_ok_of_toNat hlegal
  obtain ⟨t', r, ht', ⟨hpending, -⟩, hresponds⟩ := stepWith_command_answers hcons
  rw [step_eq_stepWith, ht'] at hstep
  cases hstep
  rw [hd] at hresponds
  exact ⟨r, hpending, hresponds.code_ne_two⟩

/-! ### The response port -/

/-- Without a delivery or a reset the waiting responses stay, in their order, at the front (10_state.md R36). -/
theorem rspPending_prefix_of_stepWith {P : Params} {s t : State} (htake : s.inputs.head? ≠ some .takeResponse)
    (hreset : s.inputs.head? ≠ some .reset) (h : stepWith P s = .next t) : s.rspPending <+: t.rspPending := by
  cases hi : s.inputs with
  | nil =>
    rw [stepWith_idle P hi] at h
    cases h
    exact List.prefix_rfl
  | cons e rest =>
    cases e with
    | command w =>
      obtain ⟨t', r, ht', ⟨hpending, -⟩, -⟩ := stepWith_command_answers (P := P) hi
      rw [ht'] at h
      cases h
      exact hpending ▸ List.prefix_append _ _
    | takeResponse => exact absurd (by rw [hi]; rfl) htake
    | reset => exact absurd (by rw [hi]; rfl) hreset

/-- Settles O42: the offered response is the first of the waiting ones, and these stay at the front. -/
theorem offeredResponseIsHeld : Obligations.OfferedResponseIsHeld := by
  intro s t r _ hword htake hreset hstep
  rw [step_eq_stepWith] at hstep
  obtain ⟨more, hmore⟩ := rspPending_prefix_of_stepWith htake hreset hstep
  obtain ⟨waiting, hwaiting⟩ := List.head?_eq_some_iff.mp hword
  have hpending : t.rspPending = r :: (waiting ++ more) := by rw [← hmore, hwaiting, List.cons_append]
  rw [rspValid, rspWord, hpending]
  exact ⟨rfl, rfl⟩

theorem deliverResponse_of_cons {s : State} {r : RspWord} {rest : List RspWord} (h : s.rspPending = r :: rest) :
    deliverResponse s = { s with rspPending := rest, rspDelivered := s.rspDelivered ++ [r] } := by
  rw [deliverResponse, h]

/-- A host that takes as often as responses wait receives them all, under any parameters (70_reset_and_hazards.md R250). -/
theorem runStepsWith_takeResponses (P : Params) {waiting : List RspWord} {s : State} {rest : List HostEvent}
    (hwaiting : s.rspPending = waiting) (hinputs : s.inputs = List.replicate waiting.length .takeResponse ++ rest) :
    runStepsWith P waiting.length s =
      .next { s with inputs := rest, rspPending := [], rspDelivered := s.rspDelivered ++ waiting } := by
  induction waiting generalizing s with
  | nil =>
    obtain ⟨v, prec, m, inputs, pending, delivered⟩ := s
    obtain rfl : inputs = rest := hinputs
    obtain rfl : pending = [] := hwaiting
    rw [List.append_nil]
    rfl
  | cons r waiting ih =>
    have hcons : s.inputs = .takeResponse :: (List.replicate waiting.length .takeResponse ++ rest) := hinputs
    have hstep : stepWith P s = .next
        { s with inputs := List.replicate waiting.length .takeResponse ++ rest, rspPending := waiting,
                 rspDelivered := s.rspDelivered ++ [r] } := by
      rw [stepWith_cons P hcons]
      exact congrArg Host.Outcome.next (deliverResponse_of_cons hwaiting)
    rw [List.length_cons, runStepsWith_succ hstep, ih rfl rfl, List.append_assoc, List.singleton_append]

/-- Settles O43: the run of deliveries at the default parameters. -/
theorem waitingResponsesAreDelivered : Obligations.WaitingResponsesAreDelivered := by
  intro s rest hinputs
  rw [runSteps_eq_runStepsWith, runStepsWith_takeResponses _ rfl hinputs]

/-! ### What changes the control -/

/-- The events that end a lifetime (00_scope.md section 7, 10_state.md R31). -/
theorem endsLifetime_eq_true_iff (P : Params) (e : HostEvent) :
    endsLifetime P e = true ↔
      e = .reset ∨ ∃ w p, e = .command w ∧ decode w = .ok (.new p) ∧ (P.pMin : Int) ≤ p ∧ p ≤ (P.pMax : Int) := by
  cases e with
  | command w =>
    cases hd : decode w with
    | ok i => cases i <;> simp [endsLifetime, hd, acceptsPrecision_iff]
    | error why => simp [endsLifetime, hd]
  | takeResponse => simp [endsLifetime]
  | reset => simp

/-- Only an event that ends the lifetime changes `V` or `PREC`, and it is a reset or an accepted `NEW` (10_state.md R21,
R22). -/
theorem stepWith_control {P : Params} {s t : State} (hP : P.Admissible) (h : stepWith P s = .next t)
    (hchange : t.v ≠ s.v ∨ t.prec ≠ s.prec) :
    (s.inputs.head? = some .reset ∧ t.v = false ∧ t.prec = 0#6) ∨
    ∃ w p, s.inputs.head? = some (.command w) ∧ decode w = .ok (.new p) ∧ (P.pMin : Int) ≤ p ∧ p ≤ (P.pMax : Int) ∧
      t.v = true ∧ (t.prec.toNat : Int) = p := by
  have hends : ∃ e ∈ s.inputs.head?, endsLifetime P e = true := by
    by_contra hnone
    have hlife : ∀ e ∈ s.inputs.head?, endsLifetime P e = false := fun e he =>
      Bool.eq_false_iff.mpr fun hend => hnone ⟨e, he, hend⟩
    obtain ⟨hv, hprec, -⟩ := stepWith_continuesLifetime hlife h
    exact hchange.elim (absurd hv) (absurd hprec)
  obtain ⟨e, he, hends⟩ := hends
  obtain ⟨rest, hcons⟩ := List.head?_eq_some_iff.mp he
  rw [endsLifetime_eq_true_iff] at hends
  rcases hends with rfl | ⟨w, p, rfl, hd, hlow, hhigh⟩
  · rw [stepWith_cons P hcons] at h
    cases h
    exact .inl ⟨he, rfl, rfl⟩
  · rw [stepWith_of_decode_ok P hcons hd, execWith_new, newCommand_of_inRange ⟨hlow, hhigh⟩] at h
    cases h
    obtain ⟨hmin, -, hmax, -, -⟩ := hP
    exact .inr ⟨w, p, he, hd, hlow, hhigh, rfl, toNat_precField (by omega) (by omega)⟩

/-- Settles O45: `stepWith_control` at the default parameters. -/
theorem onlyNewAndResetChangeControl : Obligations.OnlyNewAndResetChangeControl := by
  intro s t hstep
  rw [step_eq_stepWith] at hstep
  exact stepWith_control admissible_default hstep

/-- Settles O60: a run that does not end the lifetime stays in it, and a change of control ends it. -/
theorem lifetimeUnderEveryParameterSet : Obligations.LifetimeUnderEveryParameterSet := by
  refine fun P hP => ⟨fun n s t hv hlife hrun => ?_, fun s t hstep => stepWith_control hP hstep⟩
  obtain ⟨hv', hprec, hm⟩ := runStepsWith_continuesLifetime hlife hrun
  exact ⟨hv'.trans hv, hprec, hm⟩

/-! ### Reset -/

/-- Settles O50: two fields of `State.reset`. -/
theorem resetValues : Obligations.ResetValues := ⟨rfl, rfl⟩

/-- Settles O52: the reset state has `V = 0`, where `ADD` and `COUNT` raise `NoEstimator`. -/
theorem resetAbandonsTheEstimator : Obligations.ResetAbandonsTheEstimator := by
  intro s rest hcons
  refine ⟨resetBlock { s with inputs := rest }, ?_, rfl, rfl, rfl, rfl, rfl, rfl, rfl, fun x => ?_, ?_⟩
  · rw [step_eq_stepWith, stepWith_cons _ hcons, acceptEvent]
  · rw [exec_add, addCommand_of_noEstimator _ _ (resetBlock_v _), resetBlock_rspPending, List.nil_append]
  · rw [exec_count, countCommand_of_noEstimator _ (resetBlock_v _), resetBlock_rspPending, List.nil_append]

/-! ### The array while no estimator exists (10_state.md R41)

Two states that a host cannot tell apart stay so: while `V = 0` no command reads the array, and the `NEW` that makes `V` 1
clears it in both. -/

/-- The two states differ at most in the array, and not even there while an estimator exists. -/
def Indistinguishable (s t : State) : Prop := SameButArray s t ∧ (s.v = true → s.m = t.m)

namespace Indistinguishable
variable {P : Params} {s t : State}

theorem refl (s : State) : Indistinguishable s s := ⟨⟨rfl, rfl, rfl, rfl, rfl⟩, fun _ => rfl⟩

theorem v_eq (h : Indistinguishable s t) : t.v = s.v := h.1.1

theorem inputs_eq (h : Indistinguishable s t) : t.inputs = s.inputs := by
  obtain ⟨⟨-, -, hinputs, -, -⟩, -⟩ := h
  exact hinputs

/-- While an estimator exists the two states are one. -/
theorem eq_of_estimator (h : Indistinguishable s t) (hv : s.v = true) : s = t := by
  obtain ⟨⟨hsv, hprec, hinputs, hpending, hdelivered⟩, hm⟩ := h
  have hm := hm hv
  cases s
  cases t
  simp_all

theorem withInputs (h : Indistinguishable s t) (rest : List HostEvent) :
    Indistinguishable { s with inputs := rest } { t with inputs := rest } := by
  obtain ⟨⟨hv, hprec, -, hpending, hdelivered⟩, hm⟩ := h
  exact ⟨⟨hv, hprec, rfl, hpending, hdelivered⟩, hm⟩

theorem after_respond (h : Indistinguishable s t) (r : RspWord) : Indistinguishable (respond r s) (respond r t) := by
  obtain ⟨⟨hv, hprec, hinputs, hpending, hdelivered⟩, hm⟩ := h
  exact ⟨⟨hv, hprec, hinputs, by rw [respond_rspPending, respond_rspPending, hpending], hdelivered⟩, hm⟩

/-- A `NEW` does the same in both, and clears both arrays when it succeeds. -/
theorem after_newCommand (h : Indistinguishable s t) (p : Int) : Indistinguishable (newCommand P p s) (newCommand P p t) := by
  cases hp : acceptsPrecision P p with
  | true =>
    obtain ⟨⟨-, -, hinputs, hpending, hdelivered⟩, -⟩ := h
    rw [acceptsPrecision_iff] at hp
    rw [newCommand_of_inRange hp, newCommand_of_inRange hp]
    refine after_respond ?_ _
    exact ⟨⟨rfl, rfl, hinputs, hpending, hdelivered⟩, fun _ => rfl⟩
  | false =>
    rw [newCommand, newCommand, hp]
    exact h.after_respond _

theorem after_addCommand (h : Indistinguishable s t) (x : Word64) : Indistinguishable (addCommand P x s) (addCommand P x t) := by
  cases hv : s.v with
  | true => rw [h.eq_of_estimator hv]; exact refl _
  | false =>
    have hv' : t.v = false := h.v_eq.trans hv
    rw [addCommand, addCommand, hv, hv']
    exact h.after_respond _

theorem after_countCommand (h : Indistinguishable s t) : Indistinguishable (countCommand P s) (countCommand P t) := by
  cases hv : s.v with
  | true => rw [h.eq_of_estimator hv]; exact refl _
  | false =>
    have hv' : t.v = false := h.v_eq.trans hv
    rw [countCommand, countCommand, hv, hv']
    exact h.after_respond _

theorem after_deliverResponse (h : Indistinguishable s t) : Indistinguishable (deliverResponse s) (deliverResponse t) := by
  obtain ⟨⟨hv, hprec, hinputs, hpending, hdelivered⟩, hm⟩ := h
  cases hs : s.rspPending with
  | nil =>
    rw [deliverResponse, deliverResponse, hpending, hs]
    exact ⟨⟨hv, hprec, hinputs, hpending, hdelivered⟩, hm⟩
  | cons r rest =>
    rw [deliverResponse_of_cons hs, deliverResponse_of_cons (hpending.trans hs), hdelivered]
    exact ⟨⟨hv, hprec, hinputs, rfl, rfl⟩, hm⟩

theorem after_resetBlock (h : Indistinguishable s t) : Indistinguishable (resetBlock s) (resetBlock t) := by
  obtain ⟨⟨-, -, hinputs, -, hdelivered⟩, -⟩ := h
  exact ⟨⟨rfl, rfl, hinputs, rfl, hdelivered⟩, fun hv => by cases hv⟩

theorem after_acceptEvent (h : Indistinguishable s t) (e : HostEvent) :
    ∃ s' t', acceptEvent (execWith P) e s = .next s' ∧ acceptEvent (execWith P) e t = .next t' ∧ Indistinguishable s' t' := by
  cases e with
  | command w =>
    simp only [acceptEvent, acceptCommand]
    cases decode w with
    | ok i =>
      cases i with
      | new p => exact ⟨_, _, rfl, rfl, h.after_newCommand p⟩
      | add x => exact ⟨_, _, rfl, rfl, h.after_addCommand x⟩
      | count => exact ⟨_, _, rfl, rfl, h.after_countCommand⟩
    | error why => exact ⟨_, _, rfl, rfl, h.after_respond _⟩
  | takeResponse => exact ⟨_, _, rfl, rfl, h.after_deliverResponse⟩
  | reset => exact ⟨_, _, rfl, rfl, h.after_resetBlock⟩

theorem after_stepWith (h : Indistinguishable s t) :
    ∃ s' t', stepWith P s = .next s' ∧ stepWith P t = .next t' ∧ Indistinguishable s' t' := by
  have hinputs := h.inputs_eq
  cases hs : s.inputs with
  | nil => exact ⟨s, t, stepWith_idle P hs, stepWith_idle P (hinputs.trans hs), h⟩
  | cons e rest =>
    rw [stepWith_cons P hs, stepWith_cons P (hinputs.trans hs)]
    exact (h.withInputs rest).after_acceptEvent e

theorem after_runStepsWith (h : Indistinguishable s t) (n : Nat) :
    ∃ s' t', runStepsWith P n s = .next s' ∧ runStepsWith P n t = .next t' ∧ Indistinguishable s' t' := by
  induction n generalizing s t with
  | zero => exact ⟨s, t, rfl, rfl, h⟩
  | succ n ih =>
    obtain ⟨s₁, t₁, hs, ht, h₁⟩ := h.after_stepWith (P := P)
    rw [runStepsWith_succ hs, runStepsWith_succ ht]
    exact ih h₁

end Indistinguishable

/-- Settles O53: states without an estimator that differ in the array only are indistinguishable, and a run keeps them so. -/
theorem arrayUnobservableWithoutEstimator : Obligations.ArrayUnobservableWithoutEstimator := by
  intro n s t hv hsame
  have hstart : Indistinguishable s t := ⟨hsame, fun hv' => by rw [hv] at hv'; cases hv'⟩
  obtain ⟨s', t', hs, ht, hsame', hm⟩ := hstart.after_runStepsWith (P := Config.params) n
  exact ⟨s', t', by rw [runSteps_eq_runStepsWith, hs], by rw [runSteps_eq_runStepsWith, ht], hsame', hm⟩

end Sys2Proof.Machine

/-! ## The values of the rank (41_add.md R134; 92_eei_decisions.md D7)

The rank of a hash is where the leading one of its rank field stands, so each rank is a range of powers of two. -/

namespace Sys2Proof.Machine

section Rank
variable {p : Nat} {h : Word64}

/-- The ranks of a rank field that is not 0 (41_add.md R134). -/
theorem rank_eq_iff {k : Nat} (hk : 1 ≤ k) (hkp : k ≤ 64 - p) :
    Reference.rank p h = k ↔
      2 ^ (64 - p - k) ≤ Reference.rankField p h ∧ Reference.rankField p h < 2 ^ (64 - p - k + 1) := by
  by_cases hF : Reference.rankField p h = 0
  · have hpos := Nat.two_pow_pos (64 - p - k)
    rw [Reference.rank, if_pos hF]
    omega
  · have hlog := log2_rankField_lt hF
    rw [Reference.rank, if_neg hF, ← Nat.log2_eq_iff hF]
    omega

/-- The last rank is that of the all-zero rank field (41_add.md R134). -/
theorem rank_eq_last_iff : Reference.rank p h = 64 - p + 1 ↔ Reference.rankField p h = 0 := by
  by_cases hF : Reference.rankField p h = 0
  · simp [Reference.rank, hF]
  · have hlog := log2_rankField_lt hF
    rw [Reference.rank, if_neg hF]
    omega

/-- The top bit of the rank field, as a bit of the hash (41_add.md R132). -/
theorem two_pow_le_rankField_iff (hp : p ≤ 63) : 2 ^ (63 - p) ≤ Reference.rankField p h ↔ h.getLsbD (63 - p) = true := by
  have hbit : (Reference.rankField p h).testBit (63 - p) = h.getLsbD (63 - p) := by
    rw [Reference.rankField, Nat.testBit_mod_two_pow, decide_eq_true (by omega), Bool.true_and]
    rfl
  have hlt : Reference.rankField p h < 2 ^ (63 - p + 1) := by
    rw [show 63 - p + 1 = 64 - p by omega]
    exact rankField_lt p h
  rw [← hbit]
  exact ⟨fun hle => Nat.testBit_of_two_pow_le_and_two_pow_add_one_gt hle hlt, Nat.ge_two_pow_of_testBit⟩

/-- The first rank is that of a hash whose rank field has its top bit set (41_add.md R134). -/
theorem rank_eq_one_iff (hp : p ≤ 63) : Reference.rank p h = 1 ↔ h.getLsbD (63 - p) = true := by
  rw [rank_eq_iff le_rfl (by omega), ← two_pow_le_rankField_iff hp, show 64 - p - 1 = 63 - p by omega,
    show 63 - p + 1 = 64 - p by omega, and_iff_left (rankField_lt p h)]

end Rank

/-- Settles O6: the machine's rank is the spec's, and each of its values is a range of rank fields. -/
theorem rankRangeAndValues : Obligations.RankRangeAndValues := by
  intro P p x hstated _ h63
  have hlast := hashRank_le P p x
  simp only [rankAllZero, hstated] at hlast
  refine ⟨hashRank_pos P p x, hlast, ?_⟩
  rw [hashRank_eq_rank hstated h63]
  exact ⟨rank_eq_one_iff h63, fun k hk hkp => rank_eq_iff (by omega) hkp, rank_eq_last_iff⟩

/-- Settles O7: the bound of the literal reading is reached by the all-zero field only, by the count of its leading zeros. -/
theorem literalReadingDiffersOnlyAtZero : Obligations.LiteralReadingDiffersOnlyAtZero := by
  intro P p x hliteral _ h63
  simp only [hashRank, rankAllZero, hliteral, clz64_rankWord h63, Reference.rank]
  split
  · rfl
  · next hF =>
    have hlog := log2_rankField_lt hF
    omega

end Sys2Proof.Machine

/-! ## Commands in a row (41_add.md R141; 10_state.md R26; 70_reset_and_hazards.md R244, R246)

`ADD`s executed one after another fold their hashes into the array; behind a `NEW` they fold them into the cleared array of a
fresh estimator, or, when the `NEW` fails, into whatever stood before it. -/

namespace Sys2Proof.Machine

open Sys2Proof.Safety

theorem execAll_cons {i : Instr} {s t : State} (h : exec i s = .next t) (rest : List Instr) :
    execAll (i :: rest) s = execAll rest t := by
  rw [execAll, h]

/-- `ADD`s in a row fold in their hashes. -/
theorem execAll_adds {s : State} (hv : s.v = true) (xs : List Word64) :
    ∃ t, execAll (xs.map .add) s = .next t ∧ AddsHashes Config.params s t xs := by
  induction xs generalizing s with
  | nil => exact ⟨s, rfl, .of_sameEstimator _ ⟨rfl, rfl, rfl⟩⟩
  | cons x xs ih =>
    have hfirst : AddsHashes Config.params s (addCommand Config.params x s) [x] := by
      rw [addCommand_of_estimator _ x hv]
      exact ⟨rfl, rfl, rfl⟩
    obtain ⟨t, hexec, hrest⟩ := ih (hfirst.1.trans hv)
    exact ⟨t, by rw [List.map_cons, execAll_cons (exec_add x s), hexec], hfirst.trans hrest⟩

/-- `NEW` and `ADD`s behind it fold the hashes into the cleared array. -/
theorem execAll_new_adds {p : Int} (h4 : 4 ≤ p) (h16 : p ≤ 16) (xs : List Word64) (s : State) :
    ∃ t, execAll (.new p :: xs.map .add) s = .next t ∧ t.m = addHashes Config.params p.toNat Memory.cleared xs := by
  have hprec := toNat_precField (p := p) (by omega) (by omega)
  have hnew := newCommand_of_inRange (P := Config.params) (p := p) ⟨h4, h16⟩ s
  rw [execAll_cons (exec_new p s), hnew]
  obtain ⟨t, hexec, -, -, hm⟩ := execAll_adds (s := respond _ { s with v := true, prec := _, m := _ }) rfl xs
  refine ⟨t, hexec, ?_⟩
  rw [hm]
  congr 1
  show (BitVec.ofNat 6 p.toNat).toNat = p.toNat
  omega

/-- The ranks of the hashes with one index, as the spec writes them (41_add.md R140, R141). -/
theorem ranksAt_default {p : Nat} (hp : p ≤ 63) (i : Nat) (xs : List Word64) :
    ranksAt Config.params p i xs = (xs.filter (fun x => Reference.index p x = i)).map (Reference.rank p) := by
  simp only [ranksAt, hashIndex_eq_index, funext (hashRank_eq_rank (P := Config.params) rfl hp)]

/-- Settles O12: the cleared array has every register 0. -/
theorem closedFormOfRegisters : Obligations.ClosedFormOfRegisters := by
  intro p xs s h4 h16
  obtain ⟨t, hexec, hm⟩ := execAll_new_adds h4 h16 xs s
  refine ⟨t, hexec, fun i _ => ?_⟩
  rw [hm, read_addHashes, ranksAt_default (by omega)]
  rfl

theorem foldr_max_eq_zero_iff (ns : List Nat) : ns.foldr max 0 = 0 ↔ ∀ n ∈ ns, n = 0 := by
  induction ns with
  | nil => simp
  | cons n ns ih => rw [List.foldr_cons, List.forall_mem_cons, ← ih]; omega

/-- No rank is 0, so a maximum of ranks is 0 only when there is none. -/
theorem foldr_ranksAt_eq_zero_iff (P : Params) (p i : Nat) (xs : List Word64) :
    (ranksAt P p i xs).foldr max 0 = 0 ↔ ∀ x ∈ xs, Reference.index p x ≠ i := by
  have hpos := fun x => (hashRank_pos P p x).ne'
  rw [foldr_max_eq_zero_iff, ranksAt, List.forall_mem_map]
  simp [hpos, hashIndex_eq_index]

/-- Settles O13: a register that was cleared is 0 when no rank has been folded in. -/
theorem zeroExactlyWhenNeverHit : Obligations.ZeroExactlyWhenNeverHit := by
  intro p xs s h4 h16
  obtain ⟨t, hexec, hm⟩ := execAll_new_adds h4 h16 xs s
  refine ⟨t, hexec, fun i _ => ?_⟩
  rw [BitVec.toNat_eq, hm, read_addHashes, ← foldr_ranksAt_eq_zero_iff Config.params]
  rfl

/-- Settles O14: both ranks are folded into the one register. -/
theorem backToBackAddsKeepBoth : Obligations.BackToBackAddsKeepBoth := by
  intro x y s hv hindex
  obtain ⟨t, hexec, -, -, hm⟩ := execAll_adds hv [x, y]
  refine ⟨t, hexec, ?_⟩
  rw [hm, read_addHashes, ranksAt_default (Nat.le_of_lt_succ s.prec.isLt)]
  simp only [hindex, List.filter_cons_of_pos, decide_true, List.filter_nil, List.map_cons, List.map_nil, List.foldr_cons,
    List.foldr_nil]
  omega

/-- Settles O15: the failed `NEW` leaves its response only, so the `ADD` sees the `V`, `PREC` and array from before it. -/
theorem addBehindFailedNew : Obligations.AddBehindFailedNew := by
  intro p x s hp
  have hout : ¬(4 ≤ p ∧ p ≤ 16) := by omega
  have hnew : exec (.new p) s = .next { s with rspPending := s.rspPending ++ [0x010000000000000000#72] } :=
    congrArg _ (newCommand_of_outOfRange (P := Config.params) hout s)
  rw [execAll_cons hnew, execAll_cons (exec_add x _), execAll]
  constructor
  · intro hv
    have hadd := addCommand_of_noEstimator Config.params x
      (s := { s with rspPending := s.rspPending ++ [0x010000000000000000#72] }) hv
    rw [hadd, List.append_assoc]
    rfl
  · intro hv
    have hadd := addCommand_of_estimator Config.params x
      (s := { s with rspPending := s.rspPending ++ [0x010000000000000000#72] }) hv
    refine ⟨_, _, rfl, exec_add x s, ?_⟩
    rw [hadd, addCommand_of_estimator _ _ hv]
    exact ⟨hv, rfl, rfl, List.append_assoc _ _ _⟩

end Sys2Proof.Machine

/-! ## What `COUNT` answers (42_count.md R162 to R179; 95_test_vectors.md section 2.3)

The estimate is a function of the precision and the multiset of register values. In a legal state every register is at most
`64 - p + 1`, which bounds the sum and with it the raw estimate; the linear-counting value is small, so only the raw estimate
can saturate. -/

namespace Sys2Proof.Machine

open Sys2Proof.Safety

/-! ### `COUNT` up to the logarithm, and the logarithm -/

/-- Settles O18: the machine's `n` is `estimate_eq`, and its response is the spec's. -/
theorem countExactUpToLogarithm : Obligations.CountExactUpToLogarithm := by
  intro P s ⟨_, _, _, _, hden⟩ hm hv
  rw [countCommand_of_estimator P hv, estimate_eq hden hm, countResponse_eq_responseOf, respond]

/-- Settles O20: the two bounds of the fixed-point logarithm, times `m`. -/
theorem linearCountingNeverTooLarge : Obligations.LinearCountingNeverTooLarge := fun _ _ hc hcm hm =>
  ⟨linCount_le hc hcm, lt_linCount_add hc hcm hm⟩

/-- The exponential form of linear counting (42_count.md R176). -/
theorem exp_mul_log_div {m c : Nat} (hm : 0 < m) (hc : 0 < c) :
    Real.exp ((m : ℝ) * Real.log ((m : ℝ) / c)) = ((m : ℝ) / c) ^ m := by
  have hratio : (0 : ℝ) < (m : ℝ) / c := by positivity
  rw [← Real.log_pow, Real.exp_log (by positivity)]

/-- Settles O19: the floor is `linCountExact_default`, and the exponential is monotone. -/
theorem linearCountingIsExact : Obligations.LinearCountingIsExact := by
  intro p c h4 h16 hc hcm
  have hfloor : linCount (2 ^ p) c = ⌊((2 ^ p : Nat) : ℝ) * Real.log (((2 ^ p : Nat) : ℝ) / c)⌋₊ :=
    linCountExact_default p c h4 h16 hc hcm
  have hnonneg := (Nat.cast_nonneg _).trans (linCount_le hc hcm)
  refine ⟨hfloor, ?_⟩
  rw [← exp_mul_log_div (Nat.two_pow_pos p) hc, Real.exp_le_exp, Real.exp_lt_exp, hfloor]
  exact ⟨Nat.floor_le hnonneg, Nat.lt_floor_add_one _⟩

/-- At the default precisions linear counting fits the response: `m * ln(m / c)` is at most `m^2`. -/
theorem linCount_lt {m c : Nat} (hc : 1 ≤ c) (hcm : c ≤ m) (hm : m ≤ 2 ^ 16) : linCount m c < 2 ^ 64 := by
  have hcR : (1 : ℝ) ≤ c := by exact_mod_cast hc
  have hmR : (m : ℝ) ≤ 2 ^ 16 := by exact_mod_cast hm
  have hlog : Real.log ((m : ℝ) / c) ≤ m :=
    (Real.log_le_self (by positivity)).trans (div_le_self (Nat.cast_nonneg m) hcR)
  have hle : (linCount m c : ℝ) ≤ 2 ^ 16 * 2 ^ 16 :=
    calc (linCount m c : ℝ) ≤ m * Real.log ((m : ℝ) / c) := linCount_le hc hcm
      _ ≤ m * m := mul_le_mul_of_nonneg_left hlog (Nat.cast_nonneg m)
      _ ≤ 2 ^ 16 * 2 ^ 16 := by gcongr
  have hlt : (linCount m c : ℝ) < ((2 ^ 64 : ℕ) : ℝ) := hle.trans_lt (by norm_num)
  exact_mod_cast hlt

/-! ### The registers of a legal state -/

theorem wf_of_inv {P : Params} {s : State} (hinv : Inv P s) : s.m.wf := by
  obtain ⟨-, ⟨hwf, -⟩, -⟩ := hinv
  exact hwf

/-- A legal state with an estimator has a default precision, and every register is within its bound (10_state.md R22,
R25). -/
theorem legal_estimator {s : State} (hinv : Inv Config.params s) (hv : s.v = true) :
    4 ≤ s.prec.toNat ∧ s.prec.toNat ≤ 16 ∧ ∀ i, (s.m.read i).toNat ≤ 64 - s.prec.toNat + 1 := by
  obtain ⟨⟨hprec, -⟩, ⟨-, hlisted⟩, -⟩ := hinv
  obtain ⟨hlow, hhigh⟩ := hprec hv
  exact ⟨hlow, hhigh, Memory.read_le fun e he => (hlisted hv e he).2⟩

theorem registers_le {s : State} (hp : s.prec.toNat ≤ 16) : Reference.registers s ≤ 2 ^ 16 :=
  Nat.pow_le_pow_right (by decide) hp

section Bounds
variable {s : State}

/-! ### The bounds of the sum (42_count.md R165) -/

theorem two_zpow_neg_inj {n k : Nat} : (2 : ℝ) ^ (-(n : ℤ)) = 2 ^ (-(k : ℤ)) ↔ n = k := by
  rw [zpow_right_inj₀ two_pos (by norm_num)]
  omega

theorem two_zpow_neg_le {n b : Nat} (h : n ≤ b) : (2 : ℝ) ^ (-(b : ℤ)) ≤ 2 ^ (-(n : ℤ)) :=
  zpow_le_zpow_right₀ one_le_two (by omega)

/-- The sum of `m` equal registers. -/
theorem registers_mul_two_zpow_neg (s : State) (n : Nat) :
    (Reference.registers s : ℝ) * 2 ^ (-(n : ℤ)) = ∑ _i ∈ Finset.range (Reference.registers s), (2 : ℝ) ^ (-(n : ℤ)) := by
  rw [Finset.sum_const, Finset.card_range, nsmul_eq_mul]

theorem registers_div_two_pow (s : State) (b : Nat) :
    (Reference.registers s : ℝ) / 2 ^ b = Reference.registers s * 2 ^ (-(b : ℤ)) := by
  rw [zpow_neg, zpow_natCast, div_eq_mul_inv]

theorem registers_eq_sum (s : State) :
    (Reference.registers s : ℝ) = ∑ _i ∈ Finset.range (Reference.registers s), (2 : ℝ) ^ (-((0 : ℕ) : ℤ)) := by
  rw [← registers_mul_two_zpow_neg, Nat.cast_zero, neg_zero, zpow_zero, mul_one]

theorem sum_le_registers (s : State) : Reference.sum s ≤ Reference.registers s := by
  rw [registers_eq_sum]
  exact Finset.sum_le_sum fun i _ => two_zpow_neg_le (Nat.zero_le _)

theorem sum_eq_registers_iff (s : State) :
    Reference.sum s = Reference.registers s ↔ ∀ i, i < Reference.registers s → s.m.read i = 0#7 := by
  rw [registers_eq_sum, Reference.sum, Finset.sum_eq_sum_iff_of_le fun i _ => two_zpow_neg_le (Nat.zero_le _)]
  refine forall_congr' fun i => ?_
  rw [Finset.mem_range, two_zpow_neg_inj, BitVec.toNat_eq]
  rfl

theorem registers_div_le_sum {b : Nat} (hb : ∀ i, (s.m.read i).toNat ≤ b) :
    (Reference.registers s : ℝ) / 2 ^ b ≤ Reference.sum s := by
  rw [registers_div_two_pow, registers_mul_two_zpow_neg]
  exact Finset.sum_le_sum fun i _ => two_zpow_neg_le (hb i)

theorem sum_eq_registers_div_iff {b : Nat} (hb : ∀ i, (s.m.read i).toNat ≤ b) :
    Reference.sum s = (Reference.registers s : ℝ) / 2 ^ b ↔ ∀ i, i < Reference.registers s → (s.m.read i).toNat = b := by
  rw [registers_div_two_pow, registers_mul_two_zpow_neg, eq_comm, Reference.sum,
    Finset.sum_eq_sum_iff_of_le fun i _ => two_zpow_neg_le (hb i)]
  refine forall_congr' fun i => ?_
  rw [Finset.mem_range, two_zpow_neg_inj, eq_comm (a := b)]

/-! ### The bounds of the raw estimate (42_count.md R163) -/

theorem alpha_default_nonneg : 0 ≤ Reference.alpha Config.params := by
  unfold Reference.alpha
  positivity

/-- `E_raw >= ALPHA * m`, because `S <= m`. -/
theorem alpha_mul_le_raw (s : State) :
    Reference.alpha Config.params * Reference.registers s ≤ Reference.raw Config.params s := by
  rw [Reference.raw, le_div_iff₀ (sum_pos s), pow_two, ← mul_assoc]
  have halpha := alpha_default_nonneg
  exact mul_le_mul_of_nonneg_left (sum_le_registers s) (by positivity)

/-- `E_raw <= ALPHA * 2^65`, because `S >= m / 2^(64 - p + 1)` and `m = 2^p`. -/
theorem raw_le_alpha_mul (hb : ∀ i, (s.m.read i).toNat ≤ 64 - s.prec.toNat + 1) :
    Reference.raw Config.params s ≤ Reference.alpha Config.params * 2 ^ 65 := by
  have hpow : (Reference.registers s : ℝ) * 2 ^ (64 - s.prec.toNat + 1) = 2 ^ 65 := by
    rw [Reference.registers, Nat.cast_pow, Nat.cast_ofNat, ← pow_add]
    congr 1
    omega
  have hsum := registers_div_le_sum hb
  rw [div_le_iff₀ (by positivity)] at hsum
  rw [Reference.raw, div_le_iff₀ (sum_pos s), mul_assoc]
  refine mul_le_mul_of_nonneg_left ?_ alpha_default_nonneg
  calc (Reference.registers s : ℝ) ^ 2 = Reference.registers s * Reference.registers s := pow_two _
    _ ≤ Reference.registers s * (Reference.sum s * 2 ^ (64 - s.prec.toNat + 1)) :=
        mul_le_mul_of_nonneg_left hsum (Nat.cast_nonneg _)
    _ = 2 ^ 65 * Reference.sum s := by rw [← hpow]; ring

/-! ### The integer forms (42_count.md R175) -/

/-- The spec's integer sum is `S` scaled by `2^64`, if no register exceeds 64. -/
theorem scaledSum64_eq_mul_sum (hb : ∀ i, (s.m.read i).toNat ≤ 64) :
    (Reference.scaledSum64 s : ℝ) = 2 ^ 64 * Reference.sum s := by
  rw [Reference.scaledSum64, Reference.sum, Finset.mul_sum, Nat.cast_sum]
  refine Finset.sum_congr rfl fun i _ => ?_
  rw [Nat.cast_pow, Nat.cast_ofNat, pow_sub₀ _ two_ne_zero (hb i), zpow_neg, zpow_natCast]

theorem scaledSum64_pos (s : State) : 0 < Reference.scaledSum64 s :=
  Finset.sum_pos (fun _ _ => Nat.two_pow_pos _) (Finset.nonempty_range_iff.mpr (registers_pos s).ne')

/-- `E_raw` as a quotient of natural numbers. -/
theorem raw_eq_div (hb : ∀ i, (s.m.read i).toNat ≤ 64) :
    Reference.raw Config.params s =
      ((39701 * Reference.registers s ^ 2 * 2 ^ 64 : ℕ) : ℝ) / ((50000 * Reference.scaledSum64 s : ℕ) : ℝ) := by
  have hsum := (sum_pos s).ne'
  simp only [Nat.cast_mul, Nat.cast_pow, Nat.cast_ofNat]
  rw [scaledSum64_eq_mul_sum hb, Reference.raw, Reference.alpha]
  simp only [Config.params, Nat.cast_ofNat]
  field_simp

theorem raw_le_threshold_iff_scaledSum64 (hb : ∀ i, (s.m.read i).toNat ≤ 64) :
    Reference.raw Config.params s ≤ 5 / 2 * (Reference.registers s : ℝ) ↔
      2 * 39701 * Reference.registers s * 2 ^ 64 ≤ 5 * 50000 * Reference.scaledSum64 s := by
  rw [raw_le_threshold_iff (P := Config.params) (by decide), ← Nat.cast_le (α := ℝ)]
  simp only [Nat.cast_mul, Nat.cast_pow, Nat.cast_ofNat]
  rw [scaledSum64_eq_mul_sum hb]
  simp only [Config.params, Nat.cast_ofNat]
  constructor <;> intro h <;> linarith

theorem two_pow_le_raw_iff (hb : ∀ i, (s.m.read i).toNat ≤ 64) :
    (2 : ℝ) ^ 64 ≤ Reference.raw Config.params s ↔
      50000 * Reference.scaledSum64 s ≤ 39701 * Reference.registers s ^ 2 := by
  have hpos : 0 < 50000 * Reference.scaledSum64 s := Nat.mul_pos (by decide) (scaledSum64_pos s)
  rw [raw_eq_div hb, le_div_iff₀ (by exact_mod_cast hpos), mul_comm, Nat.cast_mul (39701 * Reference.registers s ^ 2),
    Nat.cast_pow, Nat.cast_ofNat, mul_le_mul_iff_left₀ (by positivity), Nat.cast_le]

end Bounds

/-- Settles O23: a sum is bounded by its terms, and equal to a bound when every term is. -/
theorem sumAndRawEstimateBounds : Obligations.SumAndRawEstimateBounds := by
  intro s hinv hv
  obtain ⟨-, -, hb⟩ := legal_estimator hinv hv
  exact ⟨registers_div_le_sum hb, sum_le_registers s, sum_pos s, sum_eq_registers_iff s, sum_eq_registers_div_iff hb,
    alpha_mul_le_raw s, raw_le_alpha_mul hb⟩

/-- Settles O22: `E_raw` is a quotient of natural numbers, so its floor and its comparisons are integer ones. -/
theorem integerFormsOfRawBranch : Obligations.IntegerFormsOfRawBranch := by
  intro s hinv hv
  obtain ⟨hp, -, hb⟩ := legal_estimator hinv hv
  have hb64 : ∀ i, (s.m.read i).toNat ≤ 64 := fun i => (hb i).trans (by omega)
  have hfloor : ⌊Reference.raw Config.params s⌋₊ =
      39701 * Reference.registers s ^ 2 * 2 ^ 64 / (50000 * Reference.scaledSum64 s) := by
    rw [raw_eq_div hb64, Nat.floor_div_eq_div]
  refine ⟨scaledSum64_pos s, raw_le_threshold_iff_scaledSum64 hb64, ?_, hfloor, two_pow_le_raw_iff hb64⟩
  rw [registerCount_eq_registers, rawFloor_eq_floor_raw (wf_of_inv hinv), hfloor]

/-! ### Saturation (42_count.md R171) -/

/-- `COUNT` at the default parameters in a legal state, up to the logarithm. -/
theorem execCount_eq {s : State} (hinv : Inv Config.params s) (hv : s.v = true) :
    exec .count s = .next { s with rspPending := s.rspPending ++ [Reference.responseOf
      (if Reference.raw Config.params s ≤ 5 / 2 * (Reference.registers s : ℝ) ∧ Reference.zeros s ≠ 0
        then linCount (Reference.registers s) (Reference.zeros s) else ⌊Reference.raw Config.params s⌋₊)] } :=
  congrArg _ (countExactUpToLogarithm Config.params s admissible_default (wf_of_inv hinv) hv)

theorem responseOf_of_lt {n : Nat} (h : n < 2 ^ 64) : Reference.responseOf n = BitVec.ofNat 72 n :=
  if_neg (by omega)

theorem responseOf_of_le {n : Nat} (h : 2 ^ 64 ≤ n) : Reference.responseOf n = 0x80FFFFFFFFFFFFFFFF#72 :=
  if_pos (by omega)

/-- A response that carries a number below `2^64` has the status of success. -/
theorem status_responseOf_of_lt {n : Nat} (h : n < 2 ^ 64) : (Reference.responseOf n).extractLsb' 64 8 = 0x00#8 := by
  rw [responseOf_of_lt h]
  apply BitVec.eq_of_toNat_eq
  have hzero : (0x00#8).toNat = 0 := rfl
  rw [BitVec.extractLsb'_toNat, BitVec.toNat_ofNat, Nat.shiftRight_eq_div_pow, hzero]
  omega

theorem linCount_zeros_lt {s : State} (hp : s.prec.toNat ≤ 16) (hzeros : Reference.zeros s ≠ 0) :
    linCount (Reference.registers s) (Reference.zeros s) < 2 ^ 64 :=
  linCount_lt (Nat.one_le_iff_ne_zero.mpr hzeros) (zeros_le_registers s) (registers_le hp)

/-- A raw estimate of 2^64 or more is not in the small range: `2.5 * m` is far below. -/
theorem not_small_of_two_pow_le_raw {s : State} (hp : s.prec.toNat ≤ 16)
    (h : (2 : ℝ) ^ 64 ≤ Reference.raw Config.params s) :
    ¬Reference.raw Config.params s ≤ 5 / 2 * (Reference.registers s : ℝ) := by
  have hreg : (Reference.registers s : ℝ) ≤ 2 ^ 16 := by exact_mod_cast registers_le hp
  intro hsmall
  have hthreshold : (5 / 2 * (Reference.registers s : ℝ)) < 2 ^ 64 := by linarith
  linarith

/-- Settles O24: at `2^64` the raw branch is taken and its floor does not fit; below, either branch fits. -/
theorem countSaturatesExactlyAbove64Bits : Obligations.CountSaturatesExactlyAbove64Bits := by
  intro s hinv hv
  obtain ⟨-, hp, -⟩ := legal_estimator hinv hv
  refine ⟨_, execCount_eq hinv hv, fun hlarge => ?_, fun hfits => ?_⟩
  · rw [if_neg fun hsmall => not_small_of_two_pow_le_raw hp hlarge hsmall.1]
    exact responseOf_of_le (Nat.le_floor (by exact_mod_cast hlarge))
  · apply status_responseOf_of_lt
    split
    · next hsmall => exact linCount_zeros_lt hp hsmall.2
    · exact (Nat.floor_lt' (by positivity)).mpr (by exact_mod_cast hfits)

/-! ### Many empty registers (95_test_vectors.md section 2.3) -/

/-- Every empty register adds 1 to the sum. -/
theorem zeros_le_sum (s : State) : (Reference.zeros s : ℝ) ≤ Reference.sum s := by
  have hzeros : (Reference.zeros s : ℝ) = ∑ i ∈ Finset.range (Reference.registers s),
      if s.m.read i = 0#7 then (1 : ℝ) else 0 := by
    rw [Reference.zeros, Finset.sum_boole]
  rw [hzeros]
  refine Finset.sum_le_sum fun i _ => ?_
  split
  · next h => simp [h]
  · positivity

/-- Settles O26: the empty registers alone bring the sum to the threshold. -/
theorem manyEmptyRegistersGiveLinearCounting : Obligations.ManyEmptyRegistersGiveLinearCounting := by
  intro s hinv hv hmany
  obtain ⟨-, hp, -⟩ := legal_estimator hinv hv
  have hreg := registers_pos s
  have hzeros : Reference.zeros s ≠ 0 := by omega
  have hmanyR : (317608 : ℝ) * Reference.registers s ≤ 1000000 * Reference.zeros s := by exact_mod_cast hmany
  obtain ⟨-, hthreshold, -⟩ := smallRangeTest s (wf_of_inv hinv)
  have hsmall : Reference.raw Config.params s ≤ 5 / 2 * (Reference.registers s : ℝ) := by
    rw [hthreshold]
    have hsum := zeros_le_sum s
    linarith
  rw [execCount_eq hinv hv, if_pos ⟨hsmall, hzeros⟩, responseOf_of_lt (linCount_zeros_lt hp hzeros)]

/-! ### What the estimate depends on (42_count.md R174, R179) -/

/-- The values of the registers, each as often as registers hold it. -/
def registerValues (s : State) : Multiset Reg := (Multiset.range (Reference.registers s)).map s.m.read

theorem count_registerValues (s : State) (x : Reg) :
    (registerValues s).count x = ((Finset.range (Reference.registers s)).filter (fun i => s.m.read i = x)).card := by
  rw [registerValues, Multiset.count_map]
  simp only [eq_comm (a := x)]
  rfl

theorem sum_eq_registerValues (s : State) :
    Reference.sum s = ((registerValues s).map (fun x => (2 : ℝ) ^ (-(x.toNat : ℤ)))).sum := by
  rw [registerValues, Multiset.map_map]
  rfl

theorem zeros_eq_registerValues (s : State) : Reference.zeros s = (registerValues s).count 0#7 :=
  (count_registerValues s 0#7).symm

/-- The raw estimate and the number of empty registers are the same for the same precision and register values. -/
theorem raw_congr {P : Params} {s t : State} (hprec : s.prec = t.prec) (hvalues : registerValues s = registerValues t) :
    Reference.raw P s = Reference.raw P t := by
  rw [Reference.raw, Reference.raw, Reference.registers, Reference.registers, hprec, sum_eq_registerValues,
    sum_eq_registerValues, hvalues]

/-- Settles O27: equal numbers of registers with each value are equal multisets of values. -/
theorem countDependsOnlyOnHistogram : Obligations.CountDependsOnlyOnHistogram := by
  intro s t hs ht hvs hvt hprec hhist
  have hvalues : registerValues s = registerValues t := Multiset.ext.mpr fun x => by
    rw [count_registerValues, count_registerValues, hhist]
  have hreg : Reference.registers t = Reference.registers s := by rw [Reference.registers, Reference.registers, hprec]
  refine ⟨_, execCount_eq hs hvs, ?_⟩
  rw [execCount_eq ht hvt, ← raw_congr hprec hvalues, hreg, zeros_eq_registerValues s, zeros_eq_registerValues t, hvalues]

/-- Settles O28: each outcome of `COUNT` is decided by `V`, and its response by `PREC` and the array. -/
theorem countIsRepeatable : Obligations.CountIsRepeatable := by
  rintro s t ⟨hv, hprec, hm⟩
  rcases countCommand_cases Config.params s with ⟨hvs, h⟩ | ⟨hvs, -⟩
  · have hestimate : estimate Config.params (registerCount t) t.m = estimate Config.params (registerCount s) s.m := by
      simp only [registerCount, hprec, hm]
    refine ⟨_, congrArg _ h, ?_⟩
    rw [exec_count, countCommand_of_estimator _ (hv.trans hvs), hestimate, respond]
  · exact ⟨_, congrArg _ (countCommand_of_noEstimator _ hvs), congrArg _ (countCommand_of_noEstimator _ (hv.trans hvs))⟩

end Sys2Proof.Machine

/-! ## The three commands under any admissible parameters (00_scope.md R7) -/

namespace Sys2Proof.Machine

/-- A successful `NEW` under any admissible parameters (40_construction.md R112). -/
theorem newCommand_fresh {P : Params} (hP : P.Admissible) {p : Int} (hlow : (P.pMin : Int) ≤ p) (hhigh : p ≤ (P.pMax : Int))
    (s : State) :
    (newCommand P p s).v = true ∧ ((newCommand P p s).prec.toNat : Int) = p ∧
      (∀ i, i < 2 ^ p.toNat → (newCommand P p s).m.read i = 0#7) ∧
      (newCommand P p s).rspPending = s.rspPending ++ [0x000000000000000000#72] ∧
      (newCommand P p s).inputs = s.inputs ∧ (newCommand P p s).rspDelivered = s.rspDelivered := by
  obtain ⟨hmin, -, hmax, -, -⟩ := hP
  have hprec := toNat_precField (p := p) (by omega) (by omega)
  rw [newCommand_of_inRange ⟨hlow, hhigh⟩]
  exact ⟨rfl, hprec, fun i _ => Memory.read_cleared i, rfl, rfl, rfl⟩

/-- Every register after an `ADD`, as the spec writes it, under the stated reading (41_add.md R135). -/
theorem read_addCommand {P : Params} (hstated : P.allZero = .stated) (x : Word64) {s : State} (hv : s.v = true) (i : Nat) :
    ((addCommand P x s).m.read i).toNat =
      if i = Reference.index s.prec.toNat x then max (s.m.read i).toNat (Reference.rank s.prec.toNat x)
      else (s.m.read i).toNat := by
  have hread := read_addHash P s.prec.toNat s.m x i
  rw [hashIndex_eq_index, hashRank_eq_rank hstated (Nat.le_of_lt_succ s.prec.isLt)] at hread
  rw [addCommand_of_estimator P x hv, respond_m, hread]

/-- Settles O58: one clause per command and outcome. -/
theorem commandsUnderEveryParameterSet : Obligations.CommandsUnderEveryParameterSet := by
  refine fun P s hP hinv => ⟨fun p hlow hhigh => ?_, fun p hp => ?_, fun hstated hv x => ?_, fun hlin hv => ?_, ?_⟩
  · exact ⟨_, execWith_new P p s, newCommand_fresh hP hlow hhigh s⟩
  · rw [execWith_new, newCommand_of_outOfRange (by omega)]
  · refine ⟨_, execWith_add P x s, read_addCommand hstated x hv, ?_⟩
    rw [addCommand_of_estimator P x hv]
    exact ⟨rfl, rfl, rfl, rfl, rfl⟩
  · obtain ⟨-, -, -, -, hden⟩ := hP
    rw [execWith_count, countCommand_eq_response hden hlin hv hinv, respond]
  · rintro hv i (rfl | ⟨x, rfl⟩)
    · rw [execWith_count, countCommand_of_noEstimator P hv]
    · rw [execWith_add, addCommand_of_noEstimator P x hv]

end Sys2Proof.Machine
